-- ==== Sys2Proof/Word.lean ====
section
/-! DEFINITION. The two value types of the block (00_scope.md R8): `u8` and `u32`, unsigned.
"The block holds no wider value", and nothing in it is sign-extended. -/

namespace Sys2Proof

/-- `u8` of R8: one wire byte, one PUSH argument, OUT.BYTE. -/
abbrev Byte := BitVec 8

/-- `u32` of R8: a register's contents, a command word. -/
abbrev Word := BitVec 32

/-- `zext_32` of R8, applied to a byte. -/
abbrev zext32 (b : Byte) : Word := b.setWidth 32

end Sys2Proof
end

