-- ==== Sys2Proof/Config.lean ====
section
/-! DEFINITION. The block's parameters: the fixed ones of 00_scope.md R5 and the open one of R6. -/

namespace Sys2Proof.Config

/-- The platform's choice behind `BASE` (R6, 92_eei_decisions.md D2): which 64-byte line of the host's
address space the window occupies.  It has no value in the model, so no proof can lean on one. -/
opaque baseIndex : Nat

/-- The length of the register window in bytes (R5, R33). -/
def windowBytes : Nat := 64

/-- `BASE` of R6: the absolute byte address of offset 0x00, "a multiple of 64". -/
def base : Nat := windowBytes * baseIndex

/-- The width, in bits, of the one admitted kind of access (R5, R38). -/
def accessBits : Nat := 32

/-- The size in bytes of a length, type or checksum field of the wire image (R5, R35). -/
def fieldBytes : Nat := 4

/-- METADATA_BYTES of R5 and R89: the 4 length, 4 type and 4 checksum bytes of every chunk. -/
def metadataBytes : Nat := 12

end Sys2Proof.Config
end

