-- ==== Sys2Proof/Syntax.lean ====
section
/-! DEFINITION. What the host can say to the block: the eight commands of the opcode map
(30_encoding.md R50), the register accesses that carry them (44_register_access.md), the platform's
hardware reset (70_reset_and_hazards.md R139), and the line syntax of host programs (R55, R56). -/

namespace Sys2Proof

/-- The command set, one constructor for each row of the opcode map (R50), with the operand forms of
R49: none, byte (`b = ARG[7:0]`), bit-select (`sel = ARG[1:0]`, `idx = ARG[7:4]`). -/
inductive Instr
  /-- NOP (R93). -/
  | nop
  /-- INIT_PARSE (R94). -/
  | initParse
  /-- INIT_ENCODE (R95). -/
  | initEncode
  /-- PUSH `b` (R96). -/
  | push (b : Byte)
  /-- END (R106). -/
  | endInput
  /-- EMIT (R107). -/
  | emit
  /-- BTEST `sel, idx` (R71). -/
  | btest (sel : BitVec 2) (idx : BitVec 4)
  /-- SRESET (R112). -/
  | sreset
  deriving DecidableEq, Repr

/-- Why a CMD word is no command: the three cases of R51, each tried only when those before it do not
apply. -/
inductive Illegal
  /-- OPC is 0x08 to 0xFF. -/
  | opcode
  /-- RSV, bits 23:8, is not 0. -/
  | reserved
  /-- ARG breaks the form of its opcode. -/
  | argument
  deriving DecidableEq, Repr

/-- A row of the opcode map (R50): a word belongs to the row when `word & mask = pattern`. -/
structure OpcodeRow where
  mnemonic : String
  pattern  : Word
  mask     : Word
  deriving DecidableEq, Repr

/-- The word slots of the register window, by the names of 20_memory.md R34.  `reserved k` is the slot
at offset `0x2C + 4k` (R27). -/
inductive Reg
  | cmd | status | len | type | crc | wcrc | out | cnt | erra | errb | flags
  | reserved (k : Fin 5)
  deriving DecidableEq, Repr

/-- What an access does.  The data of a write is 32 bits, the width of every admitted access (R39); an
access of another width is refused before its data is looked at (R38). -/
inductive AccessOp
  | read
  | write (v : Word)
  deriving DecidableEq, Repr

/-- One access of the host.  `off` is its byte address minus `BASE` (R120), any integer, so every
address of the host's address space has exactly one `off` and the window is `0 ≤ off < 64`. -/
structure Access where
  off   : Int
  width : Nat
  op    : AccessOp
  deriving DecidableEq, Repr

/-- What reaches the block from outside, one at a time (R10, R13). -/
inductive Event
  /-- An access that completes before the next event (R10, R43). -/
  | access (a : Access)
  /-- The platform asserts the hardware reset input (R139). -/
  | hardReset
  /-- An access concurrent with a hardware reset, which R139 puts outside the contract. -/
  | accessDuringReset (a : Access)
  deriving DecidableEq, Repr

/-- A line of a host program (R55) or a pseudo-instruction (R56).  A string operand of PUSHS is its
list of bytes. -/
inductive Line
  /-- `WR <reg>, v` -/
  | wr (r : Reg) (v : Word)
  /-- `RD <reg>` -/
  | rd (r : Reg)
  /-- `WR @off, v`, a raw offset -/
  | wrAt (off : Nat) (v : Word)
  /-- `RD @off`, a raw offset -/
  | rdAt (off : Nat)
  /-- a command by its mnemonic: `WR CMD, <word>` -/
  | cmd (i : Instr)
  /-- `PUSH32 v` -/
  | push32 (v : Word)
  /-- `PUSHS "s"` -/
  | pushs (s : List Byte)
  /-- `PUSHB b0, b1, ...` -/
  | pushb (bs : List Byte)
  /-- `EMITRD n` (`EMITRD` is `EMITRD 1`) -/
  | emitrd (n : Nat)
  /-- `SETCHUNK t, l` -/
  | setchunk (t l : Word)
  deriving DecidableEq, Repr

end Sys2Proof
end

