-- ==== Sys2Proof/WellFormed.lean ====
section
/-! DEFINITION. Which terms of the syntax the spec admits.  An instruction's operand ranges (R55) are
carried by its operands' types; an access must meet the interface contract of 20_memory.md R38. -/

namespace Sys2Proof

/-- The operand ranges of R55: "`<b>` is 0 to 255", "sel 0 to 3 and idx 0 to 15".  The operand types
hold exactly these values, so every instruction is well-formed. -/
def Instr.wellFormed : Instr → Bool
  | .nop => true
  | .initParse => true
  | .initEncode => true
  | .push b => decide (b.toNat ≤ 255)
  | .endInput => true
  | .emit => true
  | .btest sel idx => decide (sel.toNat ≤ 3) && decide (idx.toNat ≤ 15)
  | .sreset => true

/-- R38: "only 32-bit accesses at offsets that are multiples of 4, inside the window". -/
def Access.wellFormed (a : Access) : Bool :=
  decide (a.width = Config.accessBits)
    && decide (0 ≤ a.off) && decide (a.off < (Config.windowBytes : Int))
    && decide (a.off % 4 = 0)

/-- An event inside the contract: an admitted access that no reset overlaps, or a reset alone (R139). -/
def Event.wellFormed : Event → Bool
  | .access a => a.wellFormed
  | .hardReset => true
  | .accessDuringReset _ => false

end Sys2Proof
end

