-- ==== Sys2Proof/Decode.lean ====
section
/-! DEFINITION. The command encoding of 30_encoding.md: the C format (R48), the decoder (R49 to R51) and
the encoder (R57), and the opcode map as a table (R50).  `mode` and `phase` play no part here: they
never change whether a word is legal (R53). -/

namespace Sys2Proof

/-- OPC, bits 31:24 (R48). -/
def opcField (w : Word) : Byte := w.extractLsb' 24 8

/-- RSV, bits 23:8 (R48). -/
def rsvField (w : Word) : BitVec 16 := w.extractLsb' 8 16

/-- ARG, bits 7:0 (R48). -/
def argField (w : Word) : Byte := w.extractLsb' 0 8

/-- The none form of R49: "ARG must be 0x00". -/
def decodeNone (i : Instr) (arg : Byte) : Except Illegal Instr :=
  if arg = 0x00#8 then .ok i else .error .argument

/-- The bit-select form of R49: `sel = ARG[1:0]`, `idx = ARG[7:4]`, "`ARG[3:2]` must be 0". -/
def decodeBitSelect (arg : Byte) : Except Illegal Instr :=
  if arg.extractLsb' 2 2 = 0#2 then .ok (.btest (arg.extractLsb' 0 2) (arg.extractLsb' 4 4))
  else .error .argument

/-- The command of a word whose RSV is 0, by its opcode and the operand form of that opcode (R49, R50). -/
def decodeForm (opc arg : Byte) : Except Illegal Instr :=
  match opc.toNat with
  | 0x00 => decodeNone .nop arg
  | 0x01 => decodeNone .initParse arg
  | 0x02 => decodeNone .initEncode arg
  | 0x03 => .ok (.push arg)
  | 0x04 => decodeNone .endInput arg
  | 0x05 => decodeNone .emit arg
  | 0x06 => decodeBitSelect arg
  | 0x07 => decodeNone .sreset arg
  | _ => .error .opcode

/-- The decoder, total on the 2^32 CMD words (R50, R51): the command a legal word is, or which of the
cases of R51 makes it illegal. -/
def decode (w : Word) : Except Illegal Instr :=
  if 0x07#8 < opcField w then .error .opcode
  else if rsvField w ≠ 0#16 then .error .reserved
  else decodeForm (opcField w) (argField w)

/-- The encoder, from the words of R57. -/
def encode : Instr → Word
  | .nop => 0x00000000#32
  | .initParse => 0x01000000#32
  | .initEncode => 0x02000000#32
  | .push b => 0x03000000#32 ||| b.setWidth 32
  | .endInput => 0x04000000#32
  | .emit => 0x05000000#32
  | .btest sel idx => 0x06000000#32 ||| (idx.setWidth 32 <<< 4) ||| sel.setWidth 32
  | .sreset => 0x07000000#32

/-- The row of the opcode map (R50) that an instruction's words belong to. -/
def opcodeRow : Instr → OpcodeRow
  | .nop => ⟨"NOP", 0x00000000#32, 0xFFFFFFFF#32⟩
  | .initParse => ⟨"INIT_PARSE", 0x01000000#32, 0xFFFFFFFF#32⟩
  | .initEncode => ⟨"INIT_ENCODE", 0x02000000#32, 0xFFFFFFFF#32⟩
  | .push _ => ⟨"PUSH", 0x03000000#32, 0xFFFFFF00#32⟩
  | .endInput => ⟨"END", 0x04000000#32, 0xFFFFFFFF#32⟩
  | .emit => ⟨"EMIT", 0x05000000#32, 0xFFFFFFFF#32⟩
  | .btest _ _ => ⟨"BTEST", 0x06000000#32, 0xFFFFFF0C#32⟩
  | .sreset => ⟨"SRESET", 0x07000000#32, 0xFFFFFFFF#32⟩

/-- The opcode map (R50), its eight rows in order. -/
def opcodeTable : List OpcodeRow :=
  [opcodeRow .nop, opcodeRow .initParse, opcodeRow .initEncode, opcodeRow (.push 0),
   opcodeRow .endInput, opcodeRow .emit, opcodeRow (.btest 0 0), opcodeRow .sreset]

/-- `(word & mask) == match` (R50). -/
def rowMatches (w : Word) (r : OpcodeRow) : Bool := w &&& r.mask == r.pattern

/-- The instruction the decoder reads from the table word `w` of `nbits` bits.  A command is one whole
32-bit word whose bits the table numbers as R48 does, so there is nothing to lay out. -/
def decodeTableWord (nbits w : Nat) : Option Instr :=
  match decode (BitVec.ofNat 32 (w % 2 ^ nbits)) with
  | .ok i => some i
  | .error _ => none

end Sys2Proof
end

