-- ==== Sys2Proof/Machine/State.lean ====
section
/-! DEFINITION. The state of the machine: the block's own state, element by element as 10_state.md R14
lists it, and beside it the host's side of a run (70_reset_and_hazards.md R151). -/

namespace Sys2Proof.Machine

/-- `mode` of R14: which operation the sequencer runs.  Encoding 3 is never held (D22), so it has no
constructor. -/
inductive Mode
  | none | parse | encode
  deriving DecidableEq, Repr

/-- `phase` of R14: which wire field the sequencer is at.  Encoding 7 is never held (D22), so it has no
constructor. -/
inductive Phase
  | idle | len | type | payload | crc | done | error
  deriving DecidableEq, Repr

/-- The error codes of 60_exceptions.md R126.  Codes 9 to 15 are never held, so they have no
constructor. -/
inductive ErrCode
  | none | truncatedInput | invalidTypeCode | lengthMismatch | checksumMismatch
  | protocolError | illegalCommand | wrongLength | invalidText
  deriving DecidableEq, Repr

/-- The block's state: "exactly this tuple. Nothing else is state" (R14). -/
structure Block where
  /-- which operation the sequencer runs -/
  mode   : Mode
  /-- which wire field the sequencer is at -/
  phase  : Phase
  /-- byte index within the current 4-byte field, 0 to 3 -/
  fidx   : BitVec 2
  /-- declared (PARSE) or programmed (ENCODE) payload length -/
  len    : Word
  /-- the 4 type-code bytes, byte 0 at bits 31:24 -/
  type   : Word
  /-- payload bytes processed so far -/
  cnt    : Word
  /-- running CRC register, before the final complement -/
  crc    : Word
  /-- checksum assembled from the wire (PARSE) -/
  wcrc   : Word
  /-- the latched error's code -/
  err    : ErrCode
  /-- the phase in which the latched error was detected -/
  ephase : Phase
  /-- error information word A -/
  erra   : Word
  /-- error information word B -/
  errb   : Word
  /-- last byte produced for the wire (ENCODE) -/
  out    : Byte
  /-- `out` holds a byte produced by the last EMIT or PUSH -/
  outv   : Bool
  /-- result of the last BTEST -/
  btr    : Bool
  deriving DecidableEq, Repr

/-- The machine: the block, and the host's side of the run that drives it.  The block "has no step of
its own" (R13), so what it is asked to do next stands beside it as data, and so does what its reads
have returned (R151). -/
structure State where
  /-- the block (R14) -/
  block   : Block
  /-- the model's own field: the host's accesses still to come, in program order (R43, R151) -/
  pending : List Event
  /-- the model's own field: the values the host's reads have returned, oldest first (R151) -/
  reads   : List Word
  deriving DecidableEq, Repr

/-- Why the machine stops with a fault: never.  "The block never stops answering accesses: an error is a
state, not a hang" (60_exceptions.md, opening); every error of R126 is a next state.  So this closed
inductive has no constructor, nobody raises one, and that is safe: the type has no value. -/
inductive Fault
  deriving DecidableEq, Repr

/-- Why the model gives an access no step (93_implementation_defined.md, treatment `refuse`).  Each is
safe: a claim about a run that makes such an access cannot be proved. -/
inductive Refusal
  /-- An instruction with no meaning yet.  Safe.  Raised by no arm of `exec`. -/
  | notModelled (mnemonic : String)
  /-- Raised by `accessTarget`: an access that is not 32 bits wide (R38).  Safe. -/
  | accessWidth
  /-- Raised by `accessTarget`: an access outside the 64-byte window, which is "not an access to the block"
  (R41).  Safe. -/
  | accessOutsideWindow
  /-- Raised by `accessTarget`: an access at an offset that is not a multiple of 4 (R38).  Safe. -/
  | accessMisaligned
  /-- Raised by `perform`: an access concurrent with a hardware reset, outside the contract (R139; the
  treatment is that of 93_implementation_defined.md; log 7).  Safe. -/
  | accessDuringReset
  deriving DecidableEq, Repr

/-- The reset value of every state element (70_reset_and_hazards.md R140). -/
def Block.reset : Block where
  mode   := .none
  phase  := .idle
  fidx   := 0#2
  len    := 0x00000000#32
  type   := 0x00000000#32
  cnt    := 0x00000000#32
  crc    := 0xFFFFFFFF#32
  wcrc   := 0x00000000#32
  err    := .none
  ephase := .idle
  erra   := 0x00000000#32
  errb   := 0x00000000#32
  out    := 0x00#8
  outv   := false
  btr    := false

/-- The machine right after reset (R140, R141): the block at its reset values, the host having asked for
nothing yet. -/
def State.reset : State where
  block   := Block.reset
  pending := []
  reads   := []

end Sys2Proof.Machine
end

