-- ==== Sys2Proof/Machine/Operands.lean ====
section
/-! DEFINITION. Bytes of words, the codes of the enumerated elements, and the big-endian packer and
unpacker (00_scope.md R7, 10_state.md R14, 60_exceptions.md R126, 42_packer.md). -/

namespace Sys2Proof.Machine

/-- `byte_i(w)` of R7: `w[31-8i : 24-8i]`, so byte 0 is the most significant. -/
def byteOf (w : Word) (i : BitVec 2) : Byte := w.extractLsb' (24 - 8 * i.toNat) 8

/-- `byte_i(w) <- b`: "the other three bytes are kept" (R99). -/
def setByte (w : Word) (i : BitVec 2) (b : Byte) : Word :=
  (w &&& ~~~(0x000000FF#32 <<< (24 - 8 * i.toNat))) ||| (zext32 b <<< (24 - 8 * i.toNat))

/-- The mode encoding of R14. -/
def modeCode : Mode → BitVec 2
  | .none => 0
  | .parse => 1
  | .encode => 2

/-- The phase encoding of R14. -/
def phaseCode : Phase → BitVec 3
  | .idle => 0
  | .len => 1
  | .type => 2
  | .payload => 3
  | .crc => 4
  | .done => 5
  | .error => 6

/-- `code(E)`: the error code numbers of R126. -/
def errCode : ErrCode → BitVec 4
  | .none => 0
  | .truncatedInput => 1
  | .invalidTypeCode => 2
  | .lengthMismatch => 3
  | .checksumMismatch => 4
  | .protocolError => 5
  | .illegalCommand => 6
  | .wrongLength => 7
  | .invalidText => 8

/-- `be32_pack(v)` of R84: most significant byte first. -/
def be32Pack (v : Word) : List Byte := [byteOf v 0, byteOf v 1, byteOf v 2, byteOf v 3]

/-- `be32_unpack([c0, c1, c2, c3])` of R85. -/
def be32Unpack (c0 c1 c2 c3 : Byte) : Word :=
  zext32 c0 <<< 24 ||| zext32 c1 <<< 16 ||| zext32 c2 <<< 8 ||| zext32 c3

/-- `be32_shift_in(acc, b)` of R86. -/
def be32ShiftIn (acc : Word) (b : Byte) : Word := (acc <<< 8) ||| zext32 b

end Sys2Proof.Machine
end

