-- ==== Sys2Proof/Machine/Crc.lean ====
section
/-! DEFINITION. The CRC32 IEEE-802.3 engine (41_crc32.md): the bit-serial update (R76), its table form
(R77), and the CRC of a byte sequence (R78). -/

namespace Sys2Proof.Machine

/-- The exponents of the generator polynomial of R73, below its leading `x^32`. -/
def crcExponents : List Nat := [26, 23, 22, 16, 12, 11, 10, 8, 7, 5, 4, 2, 1, 0]

/-- The generator polynomial in normal (most-significant-first) form (R73). -/
def crcPolyNormal : Word := 0x04C11DB7#32

/-- The generator polynomial in reflected form (R73), the one the reflected engine uses (R74). -/
def crcPolyReflected : Word := 0xEDB88320#32

/-- The value the CRC register starts at (R75). -/
def crcInit : Word := 0xFFFFFFFF#32

/-- One turn of the loop of R76. -/
def crcBit (c : Word) : Word :=
  if c.getLsbD 0 then (c >>> 1) ^^^ crcPolyReflected else c >>> 1

/-- `n` turns of the loop of R76. -/
def crcBits : Nat → Word → Word
  | 0, c => c
  | n + 1, c => crcBits n (crcBit c)

/-- `crc_update(c, b)` of R76: the register after one byte. -/
def crcUpdate (c : Word) (b : Byte) : Word := crcBits 8 (c ^^^ zext32 b)

/-- `crc_final(c)` of R75. -/
def crcFinal (c : Word) : Word := c ^^^ 0xFFFFFFFF#32

/-- `T[n] = crc_update(0, n)` of R77. -/
def crcTable (n : Byte) : Word := crcUpdate 0#32 n

/-- The table form of R77: `T[(c ^ b) & 0xFF] ^ (c >> 8)`. -/
def crcUpdateByTable (c : Word) (b : Byte) : Word :=
  crcTable (((c ^^^ zext32 b) &&& 0x000000FF#32).setWidth 8) ^^^ (c >>> 8)

/-- `crc32(s)` of R78. -/
def crc32 (s : List Byte) : Word := crcFinal (s.foldl crcUpdate crcInit)

end Sys2Proof.Machine
end

