-- ==== Sys2Proof/Machine/Flags.lean ====
section
/-! DEFINITION. Everything the block works out rather than stores: the type-code decoder of
40_typecode.md, the bit-test helper, and the STATUS, OUT and FLAGS words of 10_state.md R18, R23, R26. -/

namespace Sys2Proof.Machine

/-- `is_alpha(b)` of R58: 'A' to 'Z' or 'a' to 'z'. -/
def isAlpha (b : Byte) : Bool :=
  (decide (0x41#8 ≤ b) && decide (b ≤ 0x5A#8)) || (decide (0x61#8 ≤ b) && decide (b ≤ 0x7A#8))

/-- `bit5(b)` of R59: the classification bit, "bit 5 (value 0x20)". -/
def bit5 (b : Byte) : Bool := b &&& 0x20#8 != 0#8

/-- CRITICAL of R60, from byte 0. -/
def critical (t : Word) : Bool := !bit5 (byteOf t 0)

/-- PUBLIC of R61, from byte 1. -/
def isPublic (t : Word) : Bool := !bit5 (byteOf t 1)

/-- RSVD_VALID of R62, from byte 2. -/
def rsvdValid (t : Word) : Bool := !bit5 (byteOf t 2)

/-- SAFE_COPY of R63, from byte 3. -/
def safeCopy (t : Word) : Bool := bit5 (byteOf t 3)

/-- ALPHA_i of R65. -/
def alpha (t : Word) (i : BitVec 2) : Bool := isAlpha (byteOf t i)

/-- VALID_TEXT of R65: the check of the source's `from_text`. -/
def validText (t : Word) : Bool := alpha t 0 && alpha t 1 && alpha t 2 && alpha t 3

/-- VALID_RAW of R66: the check of the source's `from_bytes`, and of PARSE. -/
def validRaw (t : Word) : Bool := validText t && rsvdValid t

/-- `flags(t)` of R69: the FLAGS word. -/
def flags (t : Word) : Word :=
  (BitVec.ofBool (validRaw t) ++ BitVec.ofBool (validText t)
    ++ BitVec.ofBool (alpha t 3) ++ BitVec.ofBool (alpha t 2)
    ++ BitVec.ofBool (alpha t 1) ++ BitVec.ofBool (alpha t 0)
    ++ BitVec.ofBool (safeCopy t) ++ BitVec.ofBool (rsvdValid t)
    ++ BitVec.ofBool (isPublic t) ++ BitVec.ofBool (critical t)).setWidth 32

/-- `bit_test(b, i)` of R70: 0 for an index of 8 or more. -/
def bitTest (b : Byte) (i : Nat) : Bool := if i < 8 then (b >>> i) &&& 1#8 == 1#8 else false

/-- The STATUS word of R18. -/
def statusWord (k : Block) : Word :=
  (phaseCode k.ephase ++ 0#3 ++ BitVec.ofBool k.btr ++ 0#2 ++ k.fidx ++ errCode k.err ++ 0#3
    ++ modeCode k.mode ++ phaseCode k.phase).setWidth 32

/-- The OUT word of R23. -/
def outWord (k : Block) : Word := (BitVec.ofBool k.outv ++ k.out).setWidth 32

end Sys2Proof.Machine
end

