-- ==== Sys2Proof/Machine/Ops.lean ====
section
/-! DEFINITION. The named operations over the block and the window: error entry, the moves of the
sequencer that several commands share, the register reads, and which accesses are admitted. -/

namespace Sys2Proof.Machine

/-- The state with another block; the host's side of the run is untouched. -/
def State.withBlock (s : State) (k : Block) : State := { s with block := k }

/-- Error entry, `raise E(a, b)` of 60_exceptions.md R128: "Nothing else changes." -/
def raise (e : ErrCode) (a b : Word) (k : Block) : Block :=
  { k with ephase := k.phase, phase := .error, err := e, erra := a, errb := b }

/-- ProtocolError for a command that the mode and phase do not allow: ERRA is the CMD word, ERRB the
offset 0x00 (R127). -/
def refuseCommand (i : Instr) (k : Block) : Block := raise .protocolError (encode i) 0x00#32 k

/-- The phases in which the host may write LEN and TYPE (R122, R12). -/
def quiescent : Phase → Bool
  | .idle => true
  | .len => false
  | .type => false
  | .payload => false
  | .crc => false
  | .done => true
  | .error => true

/-- The end of one byte of a 4-byte field: the next byte of it, or byte 0 of the phase that follows
(R98, R108, R110). -/
def advanceField (follows : Phase) (k : Block) : Block :=
  if k.fidx = 3#2 then { k with fidx := 0#2, phase := follows } else { k with fidx := k.fidx + 1#2 }

/-- `crc <- crc_update(crc, b)`: one byte fed to the CRC (R76). -/
def feedCrc (b : Byte) (k : Block) : Block := { k with crc := crcUpdate k.crc b }

/-- `out <- b; outv <- 1`: one byte produced for the wire (R104, R108). -/
def produce (b : Byte) (k : Block) : Block := { k with out := b, outv := true }

/-- `leave_payload()` of 43_commands.md R101, its defensive branch kept as written. -/
def leavePayload (k : Block) : Block :=
  if k.cnt ≠ k.len then raise .lengthMismatch k.len k.cnt k
  else { k with phase := .crc, fidx := 0#2 }

/-- What INIT_PARSE and INIT_ENCODE both do (R94, R95); LEN, TYPE and BTR are left to them. -/
def restart (m : Mode) (k : Block) : Block :=
  { k with
    mode := m, phase := .len, fidx := 0#2
    cnt := 0#32, crc := crcInit, wcrc := 0#32
    err := .none, ephase := .idle, erra := 0#32, errb := 0#32
    out := 0#8, outv := false }

/-- The offset of each register (20_memory.md R34). -/
def regOffset : Reg → Nat
  | .cmd => 0x00
  | .status => 0x04
  | .len => 0x08
  | .type => 0x0C
  | .crc => 0x10
  | .wcrc => 0x14
  | .out => 0x18
  | .cnt => 0x1C
  | .erra => 0x20
  | .errb => 0x24
  | .flags => 0x28
  | .reserved k => 0x2C + 4 * k.val

/-- The word slot at an offset, if one starts there: "The register is picked by `off` alone" (R120). -/
def regAt : Nat → Option Reg
  | 0x00 => some .cmd
  | 0x04 => some .status
  | 0x08 => some .len
  | 0x0C => some .type
  | 0x10 => some .crc
  | 0x14 => some .wcrc
  | 0x18 => some .out
  | 0x1C => some .cnt
  | 0x20 => some .erra
  | 0x24 => some .errb
  | 0x28 => some .flags
  | 0x2C => some (.reserved 0)
  | 0x30 => some (.reserved 1)
  | 0x34 => some (.reserved 2)
  | 0x38 => some (.reserved 3)
  | 0x3C => some (.reserved 4)
  | _ => none

/-- Which accesses are admitted, and to which register (R38, R41); any other is refused, not guessed. -/
def accessTarget (a : Access) : Except Refusal Reg :=
  if a.width ≠ Config.accessBits then .error .accessWidth
  else if a.off < 0 ∨ (Config.windowBytes : Int) ≤ a.off then .error .accessOutsideWindow
  else
    match regAt a.off.toNat with
    | some r => .ok r
    | none => .error .accessMisaligned

/-- `RegRead(off)` of 44_register_access.md R121. -/
def regRead (k : Block) : Reg → Word
  | .cmd => 0x00000000#32
  | .status => statusWord k
  | .len => k.len
  | .type => k.type
  | .crc => crcFinal k.crc
  | .wcrc => k.wcrc
  | .out => outWord k
  | .cnt => k.cnt
  | .erra => k.erra
  | .errb => k.errb
  | .flags => flags k.type
  | .reserved _ => 0x00000000#32

/-- What a read gives the host: one more value in the run's observation (R151). -/
def State.observe (s : State) (v : Word) : State := { s with reads := s.reads ++ [v] }

/-- `RegWrite(0x08, v)` of R122. -/
def writeLen (v : Word) (k : Block) : Block :=
  if quiescent k.phase then { k with len := v }
  else raise .protocolError v (BitVec.ofNat 32 (regOffset .len)) k

/-- `RegWrite(0x0C, v)` of R122. -/
def writeType (v : Word) (k : Block) : Block :=
  if quiescent k.phase then { k with type := v }
  else raise .protocolError v (BitVec.ofNat 32 (regOffset .type)) k

/-- An illegal CMD word: IllegalCommand, or nothing at all in phase ERROR (R51, R54). -/
def illegalWord (w : Word) (k : Block) : Block :=
  if k.phase = .error then k else raise .illegalCommand w 0x00000000#32 k

/-- A 32-bit read of a register. -/
def readOf (r : Reg) : Event := .access ⟨regOffset r, Config.accessBits, .read⟩

/-- A 32-bit write of a register. -/
def writeOf (r : Reg) (v : Word) : Event := .access ⟨regOffset r, Config.accessBits, .write v⟩

/-- The host access that is a command (R57): its word written to CMD. -/
def commandOf (i : Instr) : Event := writeOf .cmd (encode i)

/-- The access at an absolute byte address of the host's address space (R120). -/
def accessAt (address width : Nat) (op : AccessOp) : Access :=
  ⟨(address : Int) - Config.base, width, op⟩

end Sys2Proof.Machine
end

