-- ==== Sys2Proof/Machine/Stream.lean ====
section
/-! DEFINITION. The meanings of the stream commands (43_commands.md): INIT_PARSE, INIT_ENCODE, PUSH, END
and EMIT, one definition for each rule.  PUSH, END and EMIT are ignored in phase ERROR (30_encoding.md
R54, 60_exceptions.md R130). -/

namespace Sys2Proof.Machine

/-- INIT_PARSE (R94): every element but `btr`. -/
def execInitParse (s : State) : Host.Outcome State Fault Refusal :=
  .next (s.withBlock { restart .parse s.block with len := 0#32, type := 0#32 })

/-- INIT_ENCODE (R95): every element but `len`, `type` and `btr`. -/
def execInitEncode (s : State) : Host.Outcome State Fault Refusal :=
  .next (s.withBlock (restart .encode s.block))

/-- R98: one byte of the big-endian length. -/
def pushParseLen (b : Byte) (k : Block) : Block :=
  advanceField .type { k with len := be32ShiftIn k.len b }

/-- The end of the fourth type byte in R99: the type code is judged, then the payload is entered or
skipped. -/
def typeReceived (k : Block) : Block :=
  if validRaw k.type = false then raise .invalidTypeCode k.type 0#32 k
  else if k.len = 0#32 then leavePayload k
  else { k with phase := .payload }

/-- R99: one type-code byte. -/
def pushParseType (b : Byte) (k : Block) : Block :=
  let k' := feedCrc b { k with type := setByte k.type k.fidx b }
  if k.fidx = 3#2 then typeReceived { k' with fidx := 0#2 } else { k' with fidx := k.fidx + 1#2 }

/-- R100: one payload byte to check. -/
def pushParsePayload (b : Byte) (k : Block) : Block :=
  let k' := { feedCrc b k with cnt := k.cnt + 1#32 }
  if k'.cnt = k'.len then leavePayload k' else k'

/-- The end of the fourth checksum byte in R102: all 32 bits are compared. -/
def checksumReceived (k : Block) : Block :=
  if k.wcrc = crcFinal k.crc then { k with phase := .done }
  else raise .checksumMismatch k.wcrc (crcFinal k.crc) k

/-- R102: one byte of the big-endian checksum-on-wire. -/
def pushParseCrc (b : Byte) (k : Block) : Block :=
  let k' := { k with wcrc := be32ShiftIn k.wcrc b }
  if k.fidx = 3#2 then checksumReceived { k' with fidx := 0#2 } else { k' with fidx := k.fidx + 1#2 }

/-- R104: one payload byte to serialise, echoed in OUT. -/
def pushEncodePayload (b : Byte) (k : Block) : Block :=
  let k' := produce b { feedCrc b k with cnt := k.cnt + 1#32 }
  if k'.cnt = k'.len then { k' with phase := .crc, fidx := 0#2 } else k'

/-- The dispatch of R96.  The last arms are R97 and R105, and with them the pairs that R96 calls
unreachable, read as ProtocolError (log 4, DEDUCED). -/
def pushBlock (b : Byte) (k : Block) : Block :=
  match k.mode, k.phase with
  | _, .error => k
  | .parse, .len => pushParseLen b k
  | .parse, .type => pushParseType b k
  | .parse, .payload => pushParsePayload b k
  | .parse, .crc => pushParseCrc b k
  | .parse, .done => k
  | .encode, .payload => pushEncodePayload b k
  | .none, _ => refuseCommand (.push b) k
  | .parse, .idle => refuseCommand (.push b) k
  | .encode, _ => refuseCommand (.push b) k

/-- PUSH (R96): hand one stream byte to the block. -/
def execPush (b : Byte) (s : State) : Host.Outcome State Fault Refusal :=
  .next (s.withBlock (pushBlock b s.block))

/-- END (R106), outside phase ERROR: a short input in PARSE, nothing in DONE, else ProtocolError. -/
def endBlock (k : Block) : Block :=
  match k.mode, k.phase with
  | _, .error => k
  | .parse, .len => raise .truncatedInput 0#32 0#32 k
  | .parse, .type => raise .truncatedInput 0#32 0#32 k
  | .parse, .payload => raise .truncatedInput 0#32 0#32 k
  | .parse, .crc => raise .truncatedInput 0#32 0#32 k
  | .parse, .done => k
  | .encode, .done => k
  | .none, _ => refuseCommand .endInput k
  | .parse, .idle => refuseCommand .endInput k
  | .encode, _ => refuseCommand .endInput k

/-- END (R106): the input has ended. -/
def execEnd (s : State) : Host.Outcome State Fault Refusal := .next (s.withBlock (endBlock s.block))

/-- R108: the next byte of the big-endian length. -/
def emitLen (k : Block) : Block := advanceField .type (produce (byteOf k.len k.fidx) k)

/-- R109: the next type-code byte, fed to the CRC too; no validity check is made (R68). -/
def emitType (k : Block) : Block :=
  advanceField (if k.len = 0#32 then .crc else .payload)
    (feedCrc (byteOf k.type k.fidx) (produce (byteOf k.type k.fidx) k))

/-- R110: the next byte of the big-endian checksum. -/
def emitCrc (k : Block) : Block := advanceField .done (produce (byteOf (crcFinal k.crc) k.fidx) k)

/-- R111: no byte is due. -/
def emitNothing (k : Block) : Block := { k with out := 0#8, outv := false }

/-- The dispatch of R107.  The pair ENCODE, IDLE, which no run reaches, is read as ProtocolError (log 4,
DEDUCED). -/
def emitBlock (k : Block) : Block :=
  match k.mode, k.phase with
  | _, .error => k
  | .encode, .len => emitLen k
  | .encode, .type => emitType k
  | .encode, .crc => emitCrc k
  | .encode, .payload => emitNothing k
  | .encode, .done => emitNothing k
  | .none, _ => refuseCommand .emit k
  | .parse, _ => refuseCommand .emit k
  | .encode, .idle => refuseCommand .emit k

/-- EMIT (R107): produce the next non-payload wire byte in OUT. -/
def execEmit (s : State) : Host.Outcome State Fault Refusal := .next (s.withBlock (emitBlock s.block))

end Sys2Proof.Machine
end

