-- ==== Sys2Proof/Machine/System.lean ====
section
/-! DEFINITION. The meanings of NOP (43_commands.md R93) and SRESET (R112). -/

namespace Sys2Proof.Machine

/-- NOP (R93): "leaves every register as it was", in every phase. -/
def execNop (s : State) : Host.Outcome State Fault Refusal := .next s

/-- SRESET (R112): every element takes its reset value, `btr` included.  The host's later accesses and
the values it has read are its own, not the block's, and stay. -/
def execSreset (s : State) : Host.Outcome State Fault Refusal := .next (s.withBlock Block.reset)

end Sys2Proof.Machine
end

