-- ==== Sys2Proof/Machine/TypeCode.lean ====
section
/-! DEFINITION. The meaning of BTEST (40_typecode.md R71). -/

namespace Sys2Proof.Machine

/-- BTEST (R71), in every mode and phase: `btr <- bit_test(byte_sel(type), idx)`. -/
def execBtest (sel : BitVec 2) (idx : BitVec 4) (s : State) : Host.Outcome State Fault Refusal :=
  .next (s.withBlock { s.block with btr := bitTest (byteOf s.block.type sel) idx.toNat })

end Sys2Proof.Machine
end

