-- ==== Sys2Proof/Machine/Dispatch.lean ====
section
/-! DEFINITION. One arm for each command, each one call of its meaning. -/

namespace Sys2Proof.Machine

def exec (i : Instr) (s : State) : Host.Outcome State Fault Refusal :=
  match i with
  | .nop => Sys2Proof.Machine.execNop s
  | .initParse => Sys2Proof.Machine.execInitParse s
  | .initEncode => Sys2Proof.Machine.execInitEncode s
  | .push b => Sys2Proof.Machine.execPush b s
  | .endInput => Sys2Proof.Machine.execEnd s
  | .emit => Sys2Proof.Machine.execEmit s
  | .btest sel idx => Sys2Proof.Machine.execBtest sel idx s
  | .sreset => Sys2Proof.Machine.execSreset s

end Sys2Proof.Machine
end

