-- ==== Sys2Proof/Machine/Access.lean ====
section
/-! DEFINITION. What one event does to the machine: the register accesses of 44_register_access.md, CMD
writes among them (30_encoding.md R54), and the hardware reset of 70_reset_and_hazards.md R139. -/

namespace Sys2Proof.Machine

/-- `RegWrite(0x00, w)` (R123) in the decoding order of R54.  A legal word runs as its command, whose
own meaning says what phase ERROR does to it; an illegal word is IllegalCommand, or ignored in ERROR. -/
def writeCmd (w : Word) (s : State) : Host.Outcome State Fault Refusal :=
  match decode w with
  | .ok i => exec i s
  | .error _ => .next (s.withBlock (illegalWord w s.block))

/-- `RegWrite` of each register: CMD (R123), LEN and TYPE (R122); read-only and reserved ones are
ignored, "in every phase" (R124). -/
def regWrite (r : Reg) (v : Word) (s : State) : Host.Outcome State Fault Refusal :=
  match r with
  | .cmd => writeCmd v s
  | .len => .next (s.withBlock (writeLen v s.block))
  | .type => .next (s.withBlock (writeType v s.block))
  | .status => .next s
  | .crc => .next s
  | .wcrc => .next s
  | .out => .next s
  | .cnt => .next s
  | .erra => .next s
  | .errb => .next s
  | .flags => .next s
  | .reserved _ => .next s

/-- One access (R10): refused, or a read that hands the host one register's value, or a write. -/
def performAccess (a : Access) (s : State) : Host.Outcome State Fault Refusal :=
  match accessTarget a with
  | .error r => .refused r
  | .ok r =>
    match a.op with
    | .read => .next (s.observe (regRead s.block r))
    | .write v => regWrite r v s

/-- One event (R13): an access, the hardware reset (R139: "every state element to its reset value"), or
what R139 puts outside the contract. -/
def perform (e : Event) (s : State) : Host.Outcome State Fault Refusal :=
  match e with
  | .access a => performAccess a s
  | .hardReset => .next (s.withBlock Block.reset)
  | .accessDuringReset _ => .refused .accessDuringReset

end Sys2Proof.Machine
end

