-- ==== Sys2Proof/Machine/Step.lean ====
section
/-! DEFINITION. One step of the machine, and how a command is put before it. -/

namespace Sys2Proof.Machine

/-- One step: the host's next access, completed before the one after it (00_scope.md R10, 20_memory.md
R43).  With nothing pending the block waits: it "has no step of its own" (R13), and no rule depends on
time (R150). -/
def step (s : State) : Host.Outcome State Fault Refusal :=
  match s.pending with
  | [] => .next s
  | e :: rest => perform e { s with pending := rest }

/-- The state whose next step runs the command word `w`: the host's next access writes it to CMD.  A
command is one 32-bit word, so `nbits` only says which bits of `w` are the word's. -/
def State.withFetchWord (s : State) (nbits w : Nat) : State :=
  { s with pending := writeOf .cmd (BitVec.ofNat 32 (w % 2 ^ nbits)) :: s.pending }

end Sys2Proof.Machine
end

