-- ==== Sys2Proof/Machine/Codec.lean ====
section
/-! DEFINITION. The behaviour the command sequences add up to, as pure functions: the wire image of a
chunk (42_packer.md R88) and the reference parse (43_commands.md R92).  The machine does not call
them; claims compare it with them. -/

namespace Sys2Proof.Machine

/-- `wire(t, d)` of R88, for the type code `t` and the payload `d`. -/
def wire (t : Word) (d : List Byte) : List Byte :=
  be32Pack (BitVec.ofNat 32 d.length) ++ be32Pack t ++ d ++ be32Pack (crc32 (be32Pack t ++ d))

/-- `L` of R92: the length that the first four bytes declare, 0 if there are not four. -/
def declaredLength (s : List Byte) : Nat :=
  match s with
  | l0 :: l1 :: l2 :: l3 :: _ => (be32Unpack l0 l1 l2 l3).toNat
  | _ => 0

/-- The result of `parse_ref` (R92): the chunk, or an error with its two information words. -/
inductive ParseResult
  | ok (t : Word) (d : List Byte)
  | err (code : ErrCode) (a b : Word)
  deriving DecidableEq, Repr

/-- Steps 5 to 7 of R92: the checksum field `r` after the type code `t` and the payload `d`. -/
def parseChecksum (t : Word) (d r : List Byte) : ParseResult :=
  match r with
  | w0 :: w1 :: w2 :: w3 :: _ =>
    if be32Unpack w0 w1 w2 w3 = crc32 (be32Pack t ++ d) then .ok t d
    else .err .checksumMismatch (be32Unpack w0 w1 w2 w3) (crc32 (be32Pack t ++ d))
  | _ => .err .truncatedInput 0 0

/-- Steps 3 and 4 of R92: the payload, cut from the bytes `r` after the type code.  Step 4 is kept as
written, though step 3 leaves it nothing to find. -/
def parsePayload (l t : Word) (r : List Byte) : ParseResult :=
  if r.length < l.toNat then .err .truncatedInput 0 0
  else if (r.take l.toNat).length ≠ l.toNat then
    .err .lengthMismatch l (BitVec.ofNat 32 (r.take l.toNat).length)
  else parseChecksum t (r.take l.toNat) (r.drop l.toNat)

/-- `parse_ref(s)` of R92, its steps in the source's order. -/
def parseRef (s : List Byte) : ParseResult :=
  match s with
  | l0 :: l1 :: l2 :: l3 :: t0 :: t1 :: t2 :: t3 :: r =>
    if validRaw (be32Unpack t0 t1 t2 t3) = false then
      .err .invalidTypeCode (be32Unpack t0 t1 t2 t3) 0
    else parsePayload (be32Unpack l0 l1 l2 l3) (be32Unpack t0 t1 t2 t3) r
  | _ => .err .truncatedInput 0 0

end Sys2Proof.Machine
end

