-- ==== Sys2Proof/Machine/Program.lean ====
section
/-! DEFINITION. Host programs: the accesses each line of R55 and each pseudo-instruction of R56 stands
for, and the two command sequences of 43_commands.md R113 and R115. -/

namespace Sys2Proof.Machine

/-- `EMIT; RD OUT` (R56). -/
def emitRead : List Event := [commandOf .emit, readOf .out]

/-- The accesses one line stands for (R55, R56), in order. -/
def expandLine : Line → List Event
  | .wr r v => [writeOf r v]
  | .rd r => [readOf r]
  | .wrAt off v => [.access ⟨off, Config.accessBits, .write v⟩]
  | .rdAt off => [.access ⟨off, Config.accessBits, .read⟩]
  | .cmd i => [commandOf i]
  | .push32 v => (be32Pack v).map fun b => commandOf (.push b)
  | .pushs s => s.map fun b => commandOf (.push b)
  | .pushb bs => bs.map fun b => commandOf (.push b)
  | .emitrd n => (List.replicate n emitRead).flatten
  | .setchunk t l => [writeOf .type t, writeOf .len l]

/-- A host program: its lines in program order. -/
def assemble (p : List Line) : List Event := p.flatMap expandLine

/-- The parsing sequence of R115: `INIT_PARSE; PUSH s[0]; ...; PUSH s[k-1]; END`. -/
def parseProgram (s : List Byte) : List Event :=
  assemble [.cmd .initParse, .pushb s, .cmd .endInput]

/-- The serialising sequence of R113: `INIT_ENCODE; EMITRD 8; (PUSH x; RD OUT) for each x; EMITRD 4`. -/
def encodeProgram (d : List Byte) : List Event :=
  assemble ([.cmd .initEncode, .emitrd 8] ++ d.flatMap (fun x => [.cmd (.push x), .rd .out])
    ++ [.emitrd 4])

end Sys2Proof.Machine
end

