-- ==== Sys2Proof/Safety.lean ====
section
/-! DEFINITION. The terms claims use: the invariants of 10_state.md R15, and what a run shows
(70_reset_and_hazards.md R151). -/

namespace Sys2Proof.Machine

/-- "Invariants that every reachable state keeps" (R15), clause by clause. -/
structure Block.Inv (k : Block) : Prop where
  /-- R15 (a) -/
  fidx_zero : k.phase = .idle ∨ k.phase = .payload ∨ k.phase = .done → k.fidx = 0#2
  /-- R15 (b), first half -/
  cnt_le : k.phase = .len ∨ k.phase = .type ∨ k.phase = .payload ∨ k.phase = .crc → k.cnt ≤ k.len
  /-- R15 (b), second half -/
  cnt_lt : k.phase = .payload → k.cnt < k.len
  /-- R15 (c) -/
  idle_none : k.phase = .idle → k.mode = .none
  /-- R15 (d) -/
  err_iff : k.err ≠ .none ↔ k.phase = .error
  /-- R15 (e) -/
  no_info : k.phase ≠ .error → k.ephase = .idle ∧ k.erra = 0#32 ∧ k.errb = 0#32
  /-- R15 (f) -/
  cnt_zero : k.phase = .len ∨ k.phase = .type → k.cnt = 0#32

/-- The (mode, phase) pairs of the table of 43_commands.md R96, and phase ERROR: "No other (mode, phase)
pair is reachable". -/
def Block.pairReachable (k : Block) : Bool :=
  match k.mode, k.phase with
  | _, .error => true
  | .none, .idle => true
  | .none, _ => false
  | _, .idle => false
  | _, _ => true

/-- "The observation of a run is the sequence of values its reads returned, together with the block's
state after the last access" (R151). -/
def observation (s : State) : List Word × Block := (s.reads, s.block)

/-- The run of the program `p` from the machine state `s` with nothing else pending: one step for each
event (R151). -/
def runProgram (p : List Event) (s : State) : Host.Outcome State Fault Refusal :=
  Sys2Proof.core.run p.length { s with pending := p }

/-- A run that stays inside the contract: no step of it is refused (R38, R139). -/
def Admitted (p : List Event) (s : State) : Prop := ∃ t, runProgram p s = .next t

end Sys2Proof.Machine
end

