-- ==== Sys2Proof/Certificates/Slice0/Obligations.lean ====
section
/-! DEFINITION. The statements for the provers.  Where a statement gives an instruction's result as an
equation `exec i s = .next t`, `t` is written out as an update of `s`: every element that the update
does not name keeps its value.  That is the instruction's frame.  The host's pending accesses and the
values it has read, which such an update leaves alone too, are the model's own fields (log 1), not the
spec's.  The block has no memory (20_memory.md R33), so no frame speaks of one. -/

open Sys2Proof Sys2Proof.Machine

/-! ### Reset -/

/-- R140: the reset value of every element, and the register view of each. -/
def Obligations.ResetGivesEveryElementItsValue : Prop :=
  State.reset.block =
    { mode := .none, phase := .idle, fidx := 0#2, len := 0x00000000#32, type := 0x00000000#32,
      cnt := 0x00000000#32, crc := 0xFFFFFFFF#32, wcrc := 0x00000000#32, err := .none,
      ephase := .idle, erra := 0x00000000#32, errb := 0x00000000#32, out := 0x00#8, outv := false,
      btr := false } ∧
  ∀ r : Reg, regRead State.reset.block r = if r = .flags then 0x00000007#32 else 0x00000000#32

/-- R112 and R139: SRESET and the hardware reset set every element to its reset value, from any state and
whatever operation is in progress. The model's choice (log 7, DESIGN CHOICE): the hardware reset is an event
between two accesses that leaves the host's later accesses and earlier reads alone, and an access concurrent
with it, which R139 puts outside the contract, is an event of its own that is refused (the treatment of
93_implementation_defined.md). -/
def Obligations.BothResetsGiveTheResetState : Prop :=
  encode .sreset = 0x07000000#32 ∧
  (∀ s : State, exec .sreset s = .next { s with block := State.reset.block }) ∧
  (∀ s t : State, exec .sreset s = .next t → regRead t.block .status = 0#32 ∧
    regRead t.block .crc = 0#32 ∧ regRead t.block .flags = 0x00000007#32) ∧
  ∀ (s : State) (rest : List Event),
    (s.pending = .hardReset :: rest →
      step s = .next { s with block := State.reset.block, pending := rest }) ∧
    ∀ a : Access, s.pending = .accessDuringReset a :: rest → step s = .refused .accessDuringReset

/-! ### The commands -/

/-- R93: NOP writes nothing, in every phase; OPC 0x00 with other bits set is illegal; a write of 0 to CMD
is harmless. -/
def Obligations.NopChangesNothing : Prop :=
  encode .nop = 0x00000000#32 ∧
  (∀ s : State, exec .nop s = .next s) ∧
  (∀ w : Word, w.extractLsb' 24 8 = 0x00#8 → w ≠ 0x00000000#32 → ∃ e, decode w = .error e) ∧
  ∀ (s : State) (rest : List Event), s.pending = writeOf .cmd 0x00000000#32 :: rest →
    step s = .next { s with pending := rest }

/-- R94: INIT_PARSE writes every element except `btr`, in every phase. -/
def Obligations.InitParseStartsAParse : Prop :=
  encode .initParse = 0x01000000#32 ∧
  ∀ s : State,
    exec .initParse s = .next { s with block :=
      { mode := .parse, phase := .len, fidx := 0#2, len := 0#32, type := 0#32, cnt := 0#32,
        crc := 0xFFFFFFFF#32, wcrc := 0#32, err := .none, ephase := .idle, erra := 0#32,
        errb := 0#32, out := 0#8, outv := false, btr := s.block.btr } } ∧
    ∀ t : State, exec .initParse s = .next t →
      regRead t.block .flags = 0x00000007#32 ∧
      (s.block.btr = false → regRead t.block .status = 0x00000009#32)

/-- R95: INIT_ENCODE writes every element except `len`, `type` and `btr`, in every phase and whatever TYPE
is. -/
def Obligations.InitEncodeKeepsTheChunk : Prop :=
  encode .initEncode = 0x02000000#32 ∧
  ∀ s : State,
    exec .initEncode s = .next { s with block :=
      { mode := .encode, phase := .len, fidx := 0#2, len := s.block.len, type := s.block.type,
        cnt := 0#32, crc := 0xFFFFFFFF#32, wcrc := 0#32, err := .none, ephase := .idle,
        erra := 0#32, errb := 0#32, out := 0#8, outv := false, btr := s.block.btr } } ∧
    ∀ t : State, exec .initEncode s = .next t → s.block.btr = false →
      regRead t.block .status = 0x00000011#32

/-- R71 and R70: which words are BTEST; it writes `btr` only, in every mode and phase; an index of 8 or
more gives 0; index 5 gives the raw bit behind the flags. -/
def Obligations.BtestReadsOneBitOfType : Prop :=
  (∀ (w : Word) (sel : BitVec 2) (idx : BitVec 4), decode w = .ok (.btest sel idx) ↔
    w &&& 0xFFFFFF0C#32 = 0x06000000#32 ∧ sel = w.extractLsb' 0 2 ∧ idx = w.extractLsb' 4 4) ∧
  (∀ (sel : BitVec 2) (idx : BitVec 4) (s : State),
    exec (.btest sel idx) s = .next { s with block := { s.block with
      btr := if idx.toNat < 8 then s.block.type.getLsbD (24 - 8 * sel.toNat + idx.toNat) else false } }) ∧
  (∀ (b : Byte) (i : Nat), bitTest b i = if i < 8 then b.getLsbD i else false) ∧
  ∀ (sel : BitVec 2) (s t : State), exec (.btest sel 5#4) s = .next t →
    let f := regRead t.block .flags
    t.block.btr = if sel = 3#2 then f.getLsbD 3 else !f.getLsbD sel.toNat

/-- R97: PUSH before any operation is started raises ProtocolError with the CMD word. -/
def Obligations.PushWithNoOperationIsRefused : Prop :=
  ∀ (b : Byte) (s : State), s.block.mode = .none → s.block.phase = .idle →
    exec (.push b) s = .next { s with block := { s.block with
      phase := .error, ephase := .idle, err := .protocolError,
      erra := 0x03000000#32 ||| b.setWidth 32, errb := 0#32 } }

/-- R98: PUSH in PARSE, phase LEN, shifts one byte into the length; the CRC does not see it. -/
def Obligations.PushShiftsALengthByteIn : Prop :=
  ∀ (b : Byte) (s : State), s.block.mode = .parse → s.block.phase = .len →
    exec (.push b) s = .next { s with block := { s.block with
      len := (s.block.len <<< 8) ||| b.setWidth 32
      fidx := if s.block.fidx = 3#2 then 0#2 else s.block.fidx + 1#2
      phase := if s.block.fidx = 3#2 then .type else .len } }

/-- R99: PUSH in PARSE, phase TYPE, writes one type byte, feeds it to the CRC, and at the fourth byte
judges the whole type code by VALID_RAW. -/
def Obligations.PushTakesATypeByte : Prop :=
  ∀ (b : Byte) (s : State), s.block.mode = .parse → s.block.phase = .type →
    let ty := setByte s.block.type s.block.fidx b
    let c := crcUpdate s.block.crc b
    (∀ j : BitVec 2, byteOf ty j = if j = s.block.fidx then b else byteOf s.block.type j) ∧
    (s.block.fidx ≠ 3#2 →
      exec (.push b) s = .next { s with block := { s.block with
        type := ty, crc := c, fidx := s.block.fidx + 1#2 } }) ∧
    (s.block.fidx = 3#2 → validRaw ty = false →
      exec (.push b) s = .next { s with block := { s.block with
        type := ty, crc := c, fidx := 0#2, phase := .error, ephase := .type,
        err := .invalidTypeCode, erra := ty, errb := 0#32 } }) ∧
    (s.block.fidx = 3#2 → validRaw ty = true → s.block.len ≠ 0#32 →
      exec (.push b) s = .next { s with block := { s.block with
        type := ty, crc := c, fidx := 0#2, phase := .payload } }) ∧
    (s.block.fidx = 3#2 → validRaw ty = true → s.block.len = 0#32 → s.block.cnt = 0#32 →
      exec (.push b) s = .next { s with block := { s.block with
        type := ty, crc := c, fidx := 0#2, phase := .crc } }) ∧
    (s.block.fidx = 3#2 → validRaw ty = true → s.block.len = 0#32 → s.block.cnt ≠ 0#32 →
      exec (.push b) s = .next { s with block := { s.block with
        type := ty, crc := c, fidx := 0#2, phase := .error, ephase := .type,
        err := .lengthMismatch, erra := s.block.len, errb := s.block.cnt } })

/-- R100: PUSH in PARSE, phase PAYLOAD, feeds one byte to the CRC and counts it; the last byte leaves the
payload. -/
def Obligations.PushTakesAPayloadByte : Prop :=
  ∀ (b : Byte) (s : State), s.block.mode = .parse → s.block.phase = .payload →
    (s.block.cnt + 1#32 ≠ s.block.len →
      exec (.push b) s = .next { s with block := { s.block with
        crc := crcUpdate s.block.crc b, cnt := s.block.cnt + 1#32 } }) ∧
    (s.block.cnt + 1#32 = s.block.len →
      exec (.push b) s = .next { s with block := { s.block with
        crc := crcUpdate s.block.crc b, cnt := s.block.cnt + 1#32, phase := .crc, fidx := 0#2 } })

/-- R102: PUSH in PARSE, phase CRC, shifts one checksum byte in, and at the fourth compares all 32 bits;
the CRC does not see it. -/
def Obligations.PushTakesAChecksumByte : Prop :=
  ∀ (b : Byte) (s : State), s.block.mode = .parse → s.block.phase = .crc →
    let w := (s.block.wcrc <<< 8) ||| b.setWidth 32
    let computed := s.block.crc ^^^ 0xFFFFFFFF#32
    (s.block.fidx ≠ 3#2 →
      exec (.push b) s = .next { s with block := { s.block with
        wcrc := w, fidx := s.block.fidx + 1#2 } }) ∧
    (s.block.fidx = 3#2 → w = computed →
      exec (.push b) s = .next { s with block := { s.block with
        wcrc := w, fidx := 0#2, phase := .done } }) ∧
    (s.block.fidx = 3#2 → w ≠ computed →
      exec (.push b) s = .next { s with block := { s.block with
        wcrc := w, fidx := 0#2, phase := .error, ephase := .crc, err := .checksumMismatch,
        erra := w, errb := computed } })

/-- R103: PUSH in PARSE, phase DONE, is ignored. -/
def Obligations.PushAfterAParsedChunkIsIgnored : Prop :=
  ∀ (b : Byte) (s : State), s.block.mode = .parse → s.block.phase = .done →
    exec (.push b) s = .next s

/-- R104: PUSH in ENCODE, phase PAYLOAD, feeds one byte to the CRC, counts it and echoes it in OUT; the
last byte moves on to phase CRC. -/
def Obligations.PushEchoesAPayloadByte : Prop :=
  ∀ (b : Byte) (s : State), s.block.mode = .encode → s.block.phase = .payload →
    exec (.push b) s = .next { s with block := { s.block with
      crc := crcUpdate s.block.crc b, cnt := s.block.cnt + 1#32, out := b, outv := true
      phase := if s.block.cnt + 1#32 = s.block.len then .crc else .payload
      fidx := if s.block.cnt + 1#32 = s.block.len then 0#2 else s.block.fidx } }

/-- R105: PUSH in ENCODE, phase LEN, TYPE, CRC or DONE, raises ProtocolError with the CMD word. -/
def Obligations.PushOutsideThePayloadIsRefused : Prop :=
  ∀ (b : Byte) (s : State), s.block.mode = .encode →
    s.block.phase ∈ [Phase.len, .type, .crc, .done] →
    exec (.push b) s = .next { s with block := { s.block with
      phase := .error, ephase := s.block.phase, err := .protocolError,
      erra := 0x03000000#32 ||| b.setWidth 32, errb := 0#32 } }

/-- R106: END in PARSE before DONE raises TruncatedInput, in DONE it does nothing, and in mode NONE, or in
ENCODE before DONE, it raises ProtocolError with the CMD word. -/
def Obligations.EndReportsAShortInput : Prop :=
  encode .endInput = 0x04000000#32 ∧
  ∀ s : State,
    (s.block.mode = .parse → s.block.phase ∈ [Phase.len, .type, .payload, .crc] →
      exec .endInput s = .next { s with block := { s.block with
        phase := .error, ephase := s.block.phase, err := .truncatedInput, erra := 0#32,
        errb := 0#32 } }) ∧
    (s.block.mode = .parse ∨ s.block.mode = .encode → s.block.phase = .done →
      exec .endInput s = .next s) ∧
    ((s.block.mode = .none ∧ s.block.phase ≠ .error) ∨
      (s.block.mode = .encode ∧ s.block.phase ≠ .done ∧ s.block.phase ≠ .error) →
      exec .endInput s = .next { s with block := { s.block with
        phase := .error, ephase := s.block.phase, err := .protocolError, erra := 0x04000000#32,
        errb := 0#32 } })

/-- EMIT outside ENCODE raises ProtocolError with the CMD word: the first row of R107. -/
def Obligations.EmitOutsideEncodeIsRefused : Prop :=
  encode .emit = 0x05000000#32 ∧
  ∀ s : State, s.block.mode = .none ∨ s.block.mode = .parse → s.block.phase ≠ .error →
    exec .emit s = .next { s with block := { s.block with
      phase := .error, ephase := s.block.phase, err := .protocolError, erra := 0x05000000#32,
      errb := 0#32 } }

/-- R108: EMIT in ENCODE, phase LEN, gives the next byte of the big-endian length. -/
def Obligations.EmitGivesALengthByte : Prop :=
  ∀ s : State, s.block.mode = .encode → s.block.phase = .len →
    exec .emit s = .next { s with block := { s.block with
      out := s.block.len.extractLsb' (24 - 8 * s.block.fidx.toNat) 8, outv := true
      fidx := if s.block.fidx = 3#2 then 0#2 else s.block.fidx + 1#2
      phase := if s.block.fidx = 3#2 then .type else .len } }

/-- R109: EMIT in ENCODE, phase TYPE, gives the next type-code byte and feeds it to the CRC, whatever the
type code is; an empty payload is skipped. -/
def Obligations.EmitGivesATypeByte : Prop :=
  ∀ s : State, s.block.mode = .encode → s.block.phase = .type →
    let b := s.block.type.extractLsb' (24 - 8 * s.block.fidx.toNat) 8
    exec .emit s = .next { s with block := { s.block with
      out := b, outv := true, crc := crcUpdate s.block.crc b
      fidx := if s.block.fidx = 3#2 then 0#2 else s.block.fidx + 1#2
      phase := if s.block.fidx = 3#2 then (if s.block.len = 0#32 then .crc else .payload) else .type } }

/-- R110: EMIT in ENCODE, phase CRC, gives the next byte of the big-endian checksum; the CRC register is
unchanged. -/
def Obligations.EmitGivesAChecksumByte : Prop :=
  ∀ s : State, s.block.mode = .encode → s.block.phase = .crc →
    exec .emit s = .next { s with block := { s.block with
      out := (s.block.crc ^^^ 0xFFFFFFFF#32).extractLsb' (24 - 8 * s.block.fidx.toNat) 8, outv := true
      fidx := if s.block.fidx = 3#2 then 0#2 else s.block.fidx + 1#2
      phase := if s.block.fidx = 3#2 then .done else .crc } }

/-- R111: EMIT in ENCODE, phase PAYLOAD or DONE, has no byte to give. -/
def Obligations.EmitWithNoByteDueClearsOut : Prop :=
  ∀ s : State, s.block.mode = .encode → s.block.phase = .payload ∨ s.block.phase = .done →
    exec .emit s = .next { s with block := { s.block with out := 0#8, outv := false } }

/-- Every command answers a next state from every state, and touches neither the host's pending accesses
nor the values it has read ("The block never stops answering accesses", 60_exceptions.md, opening). In the
(mode, phase) pairs that R96 calls unreachable this rests on log 4, a DEDUCED reading. -/
def Obligations.EveryCommandCompletes : Prop :=
  ∀ (i : Instr) (s : State), ∃ t : State,
    exec i s = .next t ∧ t.pending = s.pending ∧ t.reads = s.reads

/-! ### Frames -/

/-- Which commands write each of the fifteen elements of R14 (R28, R29, R30): where a command changes one,
the command, mode and phase are those whose rule lists that element under "State written", or the change is
error entry (R128) by PUSH, END or EMIT. -/
def Obligations.EachElementHasOnlyItsWriters : Prop :=
  ∀ (i : Instr) (s t : State), exec i s = .next t →
    let restarts := i = .initParse ∨ i = .initEncode ∨ i = .sreset
    let pushIn (m : Mode) (p : Phase) := (∃ b, i = .push b) ∧ s.block.mode = m ∧ s.block.phase = p
    let emitIn (p : Phase) := i = .emit ∧ s.block.mode = .encode ∧ s.block.phase = p
    let fails := ((∃ b, i = .push b) ∨ i = .endInput ∨ i = .emit) ∧
      s.block.phase ≠ .error ∧ t.block.phase = .error
    (t.block.mode ≠ s.block.mode → restarts) ∧
    (t.block.phase ≠ s.block.phase → restarts ∨ fails ∨
      pushIn .parse .len ∨ pushIn .parse .type ∨ pushIn .parse .payload ∨ pushIn .parse .crc ∨
      pushIn .encode .payload ∨ emitIn .len ∨ emitIn .type ∨ emitIn .crc) ∧
    (t.block.fidx ≠ s.block.fidx → restarts ∨
      pushIn .parse .len ∨ pushIn .parse .type ∨ pushIn .parse .payload ∨ pushIn .parse .crc ∨
      pushIn .encode .payload ∨ emitIn .len ∨ emitIn .type ∨ emitIn .crc) ∧
    (t.block.len ≠ s.block.len → i = .initParse ∨ i = .sreset ∨ pushIn .parse .len) ∧
    (t.block.type ≠ s.block.type → i = .initParse ∨ i = .sreset ∨ pushIn .parse .type) ∧
    (t.block.cnt ≠ s.block.cnt → restarts ∨ pushIn .parse .payload ∨ pushIn .encode .payload) ∧
    (t.block.crc ≠ s.block.crc → restarts ∨ pushIn .parse .type ∨ pushIn .parse .payload ∨
      pushIn .encode .payload ∨ emitIn .type) ∧
    (t.block.wcrc ≠ s.block.wcrc → restarts ∨ pushIn .parse .crc) ∧
    ((t.block.err, t.block.ephase, t.block.erra, t.block.errb)
        ≠ (s.block.err, s.block.ephase, s.block.erra, s.block.errb) →
      restarts ∨ fails) ∧
    ((t.block.out, t.block.outv) ≠ (s.block.out, s.block.outv) → restarts ∨
      pushIn .encode .payload ∨
      emitIn .len ∨ emitIn .type ∨ emitIn .crc ∨ emitIn .payload ∨ emitIn .done) ∧
    (t.block.btr ≠ s.block.btr → i = .sreset ∨ ∃ sel idx, i = .btest sel idx)

/-- R30: BTR is written only by BTEST and by reset; OUT.V only by EMIT, by PUSH in ENCODE, by INIT_PARSE,
by INIT_ENCODE and by reset; FLAGS follows TYPE at once. -/
def Obligations.FlagsHaveOnlyTheirWriters : Prop :=
  ∀ (e : Event) (rest : List Event) (s t : State), s.pending = e :: rest → step s = .next t →
    (t.block.btr ≠ s.block.btr →
      (∃ sel idx, e = commandOf (.btest sel idx)) ∨ e = commandOf .sreset ∨ e = .hardReset) ∧
    (t.block.outv ≠ s.block.outv →
      e = commandOf .emit ∨ (s.block.mode = .encode ∧ ∃ b, e = commandOf (.push b)) ∨
      e = commandOf .initParse ∨ e = commandOf .initEncode ∨ e = commandOf .sreset ∨
      e = .hardReset) ∧
    regRead t.block .flags = flags t.block.type ∧
    (t.block.type = s.block.type → regRead t.block .flags = regRead s.block .flags)

/-! ### Encoding -/

/-- R57 (which the spec marks as derived), word by word, with operands at the ends of their ranges and the
two words that R57 itself writes out. -/
def Obligations.TableWordsDecode : Prop :=
  decode 0x00000000#32 = .ok .nop ∧ decode 0x01000000#32 = .ok .initParse ∧
  decode 0x02000000#32 = .ok .initEncode ∧ decode 0x03000052#32 = .ok (.push 0x52#8) ∧
  decode 0x030000FF#32 = .ok (.push 0xFF#8) ∧ decode 0x04000000#32 = .ok .endInput ∧
  decode 0x05000000#32 = .ok .emit ∧ decode 0x06000052#32 = .ok (.btest 2#2 5#4) ∧
  decode 0x060000F3#32 = .ok (.btest 3#2 15#4) ∧ decode 0x07000000#32 = .ok .sreset

/-- Decoding and encoding agree: decoding an instruction's word gives the instruction back, with every
operand at every value, and each legal word is the word that its instruction encodes to. -/
def Obligations.DecodeAndEncodeAgree : Prop :=
  (∀ i : Instr, i.wellFormed = true ∧ decode (encode i) = .ok i) ∧
  ∀ (w : Word) (i : Instr), decode w = .ok i → encode i = w

/-- R50: a word is legal if and only if it belongs to exactly one row of the opcode map, no word belongs
to two, and the row of a legal word is that of its instruction. -/
def Obligations.LegalWordsMatchOneRow : Prop :=
  ∀ w : Word,
    let rows : List OpcodeRow :=
      [⟨"NOP", 0x00000000#32, 0xFFFFFFFF#32⟩, ⟨"INIT_PARSE", 0x01000000#32, 0xFFFFFFFF#32⟩,
       ⟨"INIT_ENCODE", 0x02000000#32, 0xFFFFFFFF#32⟩, ⟨"PUSH", 0x03000000#32, 0xFFFFFF00#32⟩,
       ⟨"END", 0x04000000#32, 0xFFFFFFFF#32⟩, ⟨"EMIT", 0x05000000#32, 0xFFFFFFFF#32⟩,
       ⟨"BTEST", 0x06000000#32, 0xFFFFFF0C#32⟩, ⟨"SRESET", 0x07000000#32, 0xFFFFFFFF#32⟩]
    let hits := rows.filter fun r => w &&& r.mask == r.pattern
    ((∃ i, decode w = .ok i) ↔ hits.length = 1) ∧ hits.length ≤ 1 ∧
    ∀ i, decode w = .ok i → hits = [opcodeRow i]

/-- R51: the three cases that make a word illegal, and what its write does: IllegalCommand and nothing
else, or in phase ERROR nothing at all. -/
def Obligations.IllegalWordsAreTheThreeCases : Prop :=
  (∀ w : Word,
    let opc := w.extractLsb' 24 8
    let rsv := w.extractLsb' 8 16
    let arg := w.extractLsb' 0 8
    (∃ e, decode w = .error e) ↔
      0x08#8 ≤ opc ∨ rsv ≠ 0#16 ∨
      (opc ∈ [0x00#8, 0x01#8, 0x02#8, 0x04#8, 0x05#8, 0x07#8] ∧ arg ≠ 0x00#8) ∨
      (opc = 0x06#8 ∧ arg.extractLsb' 2 2 ≠ 0#2)) ∧
  ∀ (s : State) (w : Word) (rest : List Event), s.pending = writeOf .cmd w :: rest →
    (∃ e, decode w = .error e) →
    (s.block.phase = .error → step s = .next { s with pending := rest }) ∧
    (s.block.phase ≠ .error → step s = .next { s with pending := rest, block := { s.block with
      phase := .error, ephase := s.block.phase, err := .illegalCommand, erra := w, errb := 0#32 } })

/-! ### Steps and accesses -/

/-- A step takes the host's next access: where it writes a legal word to CMD, the step is that command at
the state whose pending accesses are the rest (R123; that the host's accesses stand in the state is log
1). -/
def Obligations.StepRunsTheDecodedCommand : Prop :=
  ∀ (s : State) (w : Word) (rest : List Event) (i : Instr),
    s.pending = writeOf .cmd w :: rest → decode w = .ok i →
    step s = exec i { s with pending := rest }

/-- R54: the decoding order. A legal restart command runs in any phase; otherwise a word in phase ERROR is
ignored; otherwise an illegal word raises IllegalCommand; otherwise PUSH, END or EMIT runs. -/
def Obligations.CommandWordsDecodeInOrder : Prop :=
  ∀ (s : State) (w : Word) (rest : List Event), s.pending = writeOf .cmd w :: rest →
    let s' : State := { s with pending := rest }
    let isRestart (i : Instr) := i = .initParse ∨ i = .initEncode ∨ i = .sreset ∨ i = .nop ∨
      ∃ sel idx, i = .btest sel idx
    (∀ i, decode w = .ok i → isRestart i → step s = exec i s') ∧
    (s.block.phase = .error → (∀ i, decode w = .ok i → ¬ isRestart i) → step s = .next s') ∧
    (s.block.phase ≠ .error → (∃ e, decode w = .error e) →
      step s = .next { s' with block := { s.block with
        phase := .error, ephase := s.block.phase, err := .illegalCommand, erra := w, errb := 0#32 } }) ∧
    (s.block.phase ≠ .error → ∀ i, decode w = .ok i → ¬ isRestart i →
      ((∃ b, i = .push b) ∨ i = .endInput ∨ i = .emit) ∧ step s = exec i s')

/-- The block has no step of its own (R13), and a step completes exactly the next event before any later
one (R10, R43). That a step with nothing pending answers the same state is the model's choice (log 3). -/
def Obligations.StepConsumesExactlyTheNextEvent : Prop :=
  (∀ s : State, s.pending = [] → step s = .next s) ∧
  ∀ (e : Event) (rest : List Event) (s t : State), s.pending = e :: rest → step s = .next t →
    t.pending = rest ∧ ∃ v : List Word, t.reads = s.reads ++ v ∧ v.length ≤ 1 ∧ (v.length = 1 ↔
      ∃ r : Reg, e = readOf r)

/-- R121: what a read of each of the 16 offsets returns; nothing else changes. -/
def Obligations.ReadsReturnTheRegister : Prop :=
  ∀ (s : State) (rest : List Event),
    let k := s.block
    let status : Word := (phaseCode k.ephase ++ 0#3 ++ BitVec.ofBool k.btr ++ 0#2 ++ k.fidx
      ++ errCode k.err ++ 0#3 ++ modeCode k.mode ++ phaseCode k.phase).setWidth 32
    ∀ p ∈ [((0x00 : Int), (0x00000000#32 : Word)), (0x04, status), (0x08, k.len), (0x0C, k.type),
        (0x10, k.crc ^^^ 0xFFFFFFFF#32), (0x14, k.wcrc),
        (0x18, (BitVec.ofBool k.outv ++ k.out).setWidth 32), (0x1C, k.cnt), (0x20, k.erra),
        (0x24, k.errb), (0x28, flags k.type), (0x2C, 0#32), (0x30, 0#32), (0x34, 0#32), (0x38, 0#32),
        (0x3C, 0#32)],
      s.pending = .access ⟨p.1, 32, .read⟩ :: rest →
      step s = .next { s with pending := rest, reads := s.reads ++ [p.2] }

/-- R122: LEN and TYPE are written in a quiescent phase; elsewhere the write is dropped and ProtocolError
records its value and offset. -/
def Obligations.LenAndTypeAreWrittenWhenQuiescent : Prop :=
  ∀ (s : State) (rest : List Event) (v : Word),
    let quiet := s.block.phase = .idle ∨ s.block.phase = .done ∨ s.block.phase = .error
    let refusedAt (off : Word) : State := { s with pending := rest, block := { s.block with
      phase := .error, ephase := s.block.phase, err := .protocolError, erra := v, errb := off } }
    (s.pending = .access ⟨0x08, 32, .write v⟩ :: rest →
      (quiet → step s = .next { s with pending := rest, block := { s.block with len := v } }) ∧
      (¬ quiet → step s = .next (refusedAt 0x08#32))) ∧
    (s.pending = .access ⟨0x0C, 32, .write v⟩ :: rest →
      (quiet → step s = .next { s with pending := rest, block := { s.block with type := v } }) ∧
      (¬ quiet → step s = .next (refusedAt 0x0C#32)))

/-- R124: a write to a read-only or reserved offset is ignored in every phase. -/
def Obligations.ReadOnlyWritesAreIgnored : Prop :=
  ∀ (s : State) (rest : List Event) (v : Word),
    ∀ off ∈ [(0x04 : Int), 0x10, 0x14, 0x18, 0x1C, 0x20, 0x24, 0x28, 0x2C, 0x30, 0x34, 0x38, 0x3C],
      s.pending = .access ⟨off, 32, .write v⟩ :: rest → step s = .next { s with pending := rest }

/-- R38: an access is refused unless it is 32 bits wide, at a multiple of 4, inside the window; an
admitted access always completes (R42). -/
def Obligations.OnlyAlignedWordAccessesAreAdmitted : Prop :=
  ∀ (s : State) (rest : List Event) (a : Access), s.pending = .access a :: rest →
    let ok := a.width = 32 ∧ 0 ≤ a.off ∧ a.off < 64 ∧ a.off % 4 = 0
    (ok → ∃ t, step s = .next t) ∧ (¬ ok → ∃ r, step s = .refused r)

/-- R120, R33 and R41 in absolute addresses, for whatever multiple of 64 `BASE` is: the window is the 64
bytes from `BASE`, and the offset alone picks the register. -/
def Obligations.WindowIsTheLineAtBase : Prop :=
  Config.base % 64 = 0 ∧
  (∀ (address : Nat) (op : AccessOp) (r : Reg),
    accessTarget (accessAt address 32 op) = .ok r ↔ address = Config.base + regOffset r) ∧
  ∀ (address : Nat) (op : AccessOp),
    (∃ r, accessTarget (accessAt address 32 op) = .ok r) ↔
      address / 64 = Config.base / 64 ∧ address % 4 = 0

/-- R18: STATUS at offset 0x04, read-only, its fields, and the codes in them: those of phase and mode, and
the error code numbers of R126. -/
def Obligations.StatusFieldsAreInPlace : Prop :=
  (∀ k : Block,
    let w := regRead k .status
    w.extractLsb' 0 3 = phaseCode k.phase ∧ w.extractLsb' 3 2 = modeCode k.mode ∧
    w.extractLsb' 5 3 = 0#3 ∧ w.extractLsb' 8 4 = errCode k.err ∧ w.extractLsb' 12 2 = k.fidx ∧
    w.extractLsb' 14 2 = 0#2 ∧ w.getLsbD 16 = k.btr ∧ w.extractLsb' 17 3 = 0#3 ∧
    w.extractLsb' 20 3 = phaseCode k.ephase ∧ w.extractLsb' 23 9 = 0#9) ∧
  [Phase.idle, .len, .type, .payload, .crc, .done, .error].map phaseCode = [0, 1, 2, 3, 4, 5, 6] ∧
  [Mode.none, .parse, .encode].map modeCode = [0, 1, 2] ∧
  [ErrCode.none, .truncatedInput, .invalidTypeCode, .lengthMismatch, .checksumMismatch,
    .protocolError, .illegalCommand, .wrongLength, .invalidText].map errCode
    = [0, 1, 2, 3, 4, 5, 6, 7, 8] ∧
  regRead State.reset.block .status = 0x00000000#32 ∧
  regOffset .status = 0x04 ∧ ∀ (v : Word) (s : State), regWrite .status v s = .next s

/-! ### The type-code decoder -/

/-- R26 and R69, bit by bit of TYPE: the four flags are one bit each, ALPHA_i are the byte ranges of R58,
VALID_TEXT all four of them, VALID_RAW also RSVD_VALID. -/
def Obligations.FlagsAreTheirBitsOfType : Prop :=
  ∀ k : Block,
    let t := k.type
    let f := regRead k .flags
    let alphabetic (b : Byte) : Bool :=
      decide ((0x41 ≤ b.toNat ∧ b.toNat ≤ 0x5A) ∨ (0x61 ≤ b.toNat ∧ b.toNat ≤ 0x7A))
    let valid := alphabetic (t.extractLsb' 24 8) && alphabetic (t.extractLsb' 16 8) &&
      alphabetic (t.extractLsb' 8 8) && alphabetic (t.extractLsb' 0 8)
    f.getLsbD 0 = !t.getLsbD 29 ∧ f.getLsbD 1 = !t.getLsbD 21 ∧
    f.getLsbD 2 = !t.getLsbD 13 ∧ f.getLsbD 3 = t.getLsbD 5 ∧
    f.getLsbD 4 = alphabetic (t.extractLsb' 24 8) ∧ f.getLsbD 5 = alphabetic (t.extractLsb' 16 8) ∧
    f.getLsbD 6 = alphabetic (t.extractLsb' 8 8) ∧ f.getLsbD 7 = alphabetic (t.extractLsb' 0 8) ∧
    f.getLsbD 8 = valid ∧ f.getLsbD 9 = (valid && !t.getLsbD 13) ∧ f.extractLsb' 10 22 = 0#22

/-- R67: an all-alphabetic type code with bit 5 of byte 2 set gives VALID_TEXT = 1 and VALID_RAW = 0, and
PARSE rejects it; "Rust" is one. -/
def Obligations.ValidityAsymmetryIsKept : Prop :=
  (∀ t : Word, (∀ i : BitVec 2, isAlpha (byteOf t i) = true) → (byteOf t 2).getLsbD 5 = true →
    (flags t).getLsbD 8 = true ∧ (flags t).getLsbD 9 = false) ∧
  flags 0x52757374#32 = 0x000001F9#32 ∧
  ∀ (b : Byte) (s t : State), s.block.mode = .parse → s.block.phase = .type →
    s.block.fidx = 3#2 → exec (.push b) s = .next t →
    (t.block.err = .invalidTypeCode ∧ t.block.phase = .error ↔
      (flags t.block.type).getLsbD 9 = false)

/-! ### The CRC engine -/

/-- R73 and R74: the polynomial's two forms hold the exponents of R73, and the engine is the reflected
one: on bit-reversed registers it is the most-significant-first division by the normal form. -/
def Obligations.CrcEngineIsReflected : Prop :=
  (∀ i < 32, crcPolyNormal.getLsbD i
    = decide (i ∈ [26, 23, 22, 16, 12, 11, 10, 8, 7, 5, 4, 2, 1, 0])) ∧
  crcPolyNormal = 0x04C11DB7#32 ∧ crcPolyReflected = 0xEDB88320#32 ∧
  crcPolyReflected = crcPolyNormal.reverse ∧
  ∀ c : Word, (crcBit c).reverse
    = if c.reverse.msb then (c.reverse <<< 1) ^^^ 0x04C11DB7#32 else c.reverse <<< 1

/-- R77 (which the spec marks as derived): the table form and the bit-serial form agree on every register
and byte. -/
def Obligations.CrcTableFormAgrees : Prop :=
  (∀ (c : Word) (b : Byte),
    crcUpdate c b = crcUpdate 0#32 ((c ^^^ b.setWidth 32).setWidth 8) ^^^ (c >>> 8)) ∧
  [0x00#8, 0x01, 0x02, 0x80, 0xFF].map (crcUpdate 0#32)
    = [0x00000000#32, 0x77073096, 0xEE0E612C, 0xEDB88320, 0x2D02EF8D]

/-! ### The packer -/

/-- R84, R85 and R86 (the inverse laws are marked as derived there): the packer is most significant byte
first, packing and unpacking undo each other, and four shift-ins unpack from any starting accumulator. -/
def Obligations.PackAndUnpackAreInverse : Prop :=
  (∀ v : Word, be32Pack v
    = [v.extractLsb' 24 8, v.extractLsb' 16 8, v.extractLsb' 8 8, v.extractLsb' 0 8]) ∧
  (∀ v : Word, be32Unpack (byteOf v 0) (byteOf v 1) (byteOf v 2) (byteOf v 3) = v) ∧
  (∀ c0 c1 c2 c3 : Byte, be32Pack (be32Unpack c0 c1 c2 c3) = [c0, c1, c2, c3]) ∧
  ∀ (acc : Word) (c0 c1 c2 c3 : Byte),
    [c0, c1, c2, c3].foldl be32ShiftIn acc = be32Unpack c0 c1 c2 c3

/-! ### Errors -/

/-- R127: what each error records. A step that enters phase ERROR latches the phase it was raised in, one
of the codes 1 to 6, and that code's information words, and keeps FIDX and CNT as they were when it was
raised (a full 4-byte field has just set FIDX back to 0). -/
def Obligations.ErrorsRecordTheirInformation : Prop :=
  ∀ (e : Event) (rest : List Event) (s t : State), s.pending = e :: rest → step s = .next t →
    s.block.phase ≠ .error → t.block.phase = .error →
    t.block.ephase = s.block.phase ∧
    t.block.cnt = s.block.cnt ∧
    t.block.fidx = (if t.block.err ∈ [ErrCode.truncatedInput, .protocolError, .illegalCommand]
      then s.block.fidx else 0#2) ∧
    match t.block.err with
    | .none => False
    | .truncatedInput => t.block.erra = 0#32 ∧ t.block.errb = 0#32 ∧
        t.block.ephase ∈ [Phase.len, .type, .payload, .crc]
    | .invalidTypeCode => t.block.erra = t.block.type ∧ t.block.errb = 0#32 ∧ t.block.ephase = .type
    | .lengthMismatch => t.block.erra = t.block.len ∧ t.block.errb = t.block.cnt ∧
        t.block.ephase ∈ [Phase.payload, .type]
    | .checksumMismatch => t.block.erra = t.block.wcrc ∧ t.block.errb = crcFinal t.block.crc ∧
        t.block.ephase = .crc
    | .protocolError => ∃ r ∈ [Reg.cmd, .len, .type], ∃ v, e = writeOf r v ∧ t.block.erra = v ∧
        t.block.errb = BitVec.ofNat 32 (regOffset r)
    | .illegalCommand => ∃ w, e = writeOf .cmd w ∧ t.block.erra = w ∧ t.block.errb = 0#32
    | .wrongLength => False
    | .invalidText => False

/-- R128 and R129: error entry writes `phase`, `ephase`, `err`, `erra` and `errb`, and never `mode`,
`out`, `outv` or `btr`; TruncatedInput, ProtocolError and IllegalCommand make no change before entry. -/
def Obligations.ErrorEntryIsPrecise : Prop :=
  (∀ (c : ErrCode) (a b : Word) (k : Block), raise c a b k =
    { k with ephase := k.phase, phase := .error, err := c, erra := a, errb := b }) ∧
  ∀ (e : Event) (rest : List Event) (s t : State), s.pending = e :: rest → step s = .next t →
    s.block.phase ≠ .error → t.block.phase = .error →
    (t.block.mode = s.block.mode ∧ t.block.out = s.block.out ∧ t.block.outv = s.block.outv ∧
      t.block.btr = s.block.btr) ∧
    (t.block.err ∈ [ErrCode.truncatedInput, .protocolError, .illegalCommand] →
      t.block = raise t.block.err t.block.erra t.block.errb s.block)

/-- R130: what each access does in phase ERROR. -/
def Obligations.ErrorIsSticky : Prop :=
  ∀ s : State, s.block.phase = .error →
    (∀ b, exec (.push b) s = .next s) ∧ exec .endInput s = .next s ∧ exec .emit s = .next s ∧
    exec .nop s = .next s ∧
    (∀ sel idx, exec (.btest sel idx) s = .next { s with block := { s.block with
      btr := bitTest (byteOf s.block.type sel) idx.toNat } }) ∧
    ∀ rest : List Event,
      (∀ w, s.pending = writeOf .cmd w :: rest → (∃ e, decode w = .error e) →
        step s = .next { s with pending := rest }) ∧
      (∀ v, s.pending = writeOf .len v :: rest →
        step s = .next { s with pending := rest, block := { s.block with len := v } }) ∧
      (∀ v, s.pending = writeOf .type v :: rest →
        step s = .next { s with pending := rest, block := { s.block with type := v } }) ∧
      ∀ r, s.pending = readOf r :: rest →
        step s = .next { s with pending := rest, reads := s.reads ++ [regRead s.block r] }

/-- R131: only INIT_PARSE, INIT_ENCODE and SRESET (and with it the hardware reset, R139) leave phase
ERROR, each from any state, and each clears the error. -/
def Obligations.OnlyRestartsLeaveError : Prop :=
  (∀ (e : Event) (rest : List Event) (s t : State), s.pending = e :: rest → step s = .next t →
    s.block.phase = .error → t.block.phase ≠ .error →
    e = commandOf .initParse ∨ e = commandOf .initEncode ∨ e = commandOf .sreset ∨ e = .hardReset) ∧
  ∀ (i : Instr) (s : State), i = .initParse ∨ i = .initEncode ∨ i = .sreset →
    ∃ t : State, exec i s = .next t ∧ t.block.phase ≠ .error ∧ t.block.err = .none ∧
      t.block.ephase = .idle ∧ t.block.erra = 0#32 ∧ t.block.errb = 0#32

/-- R130 along a run: whatever the host does short of a restart or a reset, the first error stays. -/
def Obligations.FirstErrorIsKept : Prop :=
  ∀ (p : List Event) (s t : State), s.block.phase = .error →
    (∀ e ∈ p, e ≠ commandOf .initParse ∧ e ≠ commandOf .initEncode ∧ e ≠ commandOf .sreset ∧
      e ≠ .hardReset) →
    runProgram p s = .next t →
    t.block.phase = .error ∧ t.block.err = s.block.err ∧ t.block.ephase = s.block.ephase ∧
    t.block.erra = s.block.erra ∧ t.block.errb = s.block.errb

/-! ### Invariants -/

/-- R15 (which the spec marks as derived) holds at reset. -/
def Obligations.ResetKeepsTheInvariants : Prop := State.reset.block.Inv

/-- R15 (which the spec marks as derived): every step keeps the invariants, from every state that has
them. -/
def Obligations.StepKeepsTheInvariants : Prop :=
  ∀ s t : State, s.block.Inv → step s = .next t → t.block.Inv

/-- R96: the (mode, phase) pairs of its table and phase ERROR are the only ones: they hold at reset, and
every step keeps them. -/
def Obligations.StepKeepsTheReachablePairs : Prop :=
  State.reset.block.pairReachable = true ∧
  ∀ s t : State, s.block.pairReachable = true → step s = .next t → t.block.pairReachable = true

/-- R101 (which the spec marks as derived there) and R134: from a state with the invariants of R15 no step
raises LengthMismatch, and no step from any state raises WrongLength or InvalidText. -/
def Obligations.UnreachableErrorsAreNeverRaised : Prop :=
  ∀ s t : State, step s = .next t →
    (s.block.Inv → t.block.err = .lengthMismatch → s.block.err = .lengthMismatch) ∧
    (t.block.err = .wrongLength → s.block.err = .wrongLength) ∧
    (t.block.err = .invalidText → s.block.err = .invalidText)

/-- R22 and R14: outside PARSE the checksum from the wire stays 0, and outside ENCODE no byte stands in
OUT: both hold at reset, and every step keeps them. -/
def Obligations.StepKeepsIdleHalvesClear : Prop :=
  let clear (k : Block) := (k.mode ≠ .parse → k.wcrc = 0#32) ∧
    (k.mode ≠ .encode → k.out = 0#8 ∧ k.outv = false)
  clear State.reset.block ∧ ∀ s t : State, clear s.block → step s = .next t → clear t.block

/-- R117: the only moves of `phase` in one step: on along the wire image, into the payload only when `len` is
not 0 and past it only when `len` is 0, to ERROR, or back to LEN or IDLE by a restart. -/
def Obligations.PhasesMoveAlongTheWireImage : Prop :=
  ∀ (e : Event) (rest : List Event) (s t : State), s.pending = e :: rest → step s = .next t →
    t.block.phase ≠ s.block.phase →
    (s.block.phase, t.block.phase) ∈ [(Phase.len, Phase.type), (.payload, .crc), (.crc, .done)] ∨
    (s.block.phase = .type ∧ t.block.phase = .payload ∧ s.block.len ≠ 0#32) ∨
    (s.block.phase = .type ∧ t.block.phase = .crc ∧ s.block.len = 0#32) ∨
    (s.block.phase ≠ .error ∧ t.block.phase = .error) ∨
    (t.block.phase = .len ∧ (e = commandOf .initParse ∨ e = commandOf .initEncode)) ∨
    (t.block.phase = .idle ∧ (e = commandOf .sreset ∨ e = .hardReset))

/-- R29: `cnt` counts up by one without wrapping or restarts from 0, and `fidx` counts up by one, or wraps
from 3 to 0 as the sequencer leaves the field, or restarts from 0. -/
def Obligations.CountersDoNotWrap : Prop :=
  ∀ (i : Instr) (s t : State), s.block.Inv → exec i s = .next t →
    ((i = .initParse ∨ i = .initEncode ∨ i = .sreset) ∧ t.block.cnt = 0#32 ∧ t.block.fidx = 0#2) ∨
    ((t.block.cnt = s.block.cnt ∨ t.block.cnt.toNat = s.block.cnt.toNat + 1) ∧
      (t.block.fidx = s.block.fidx ∨ t.block.fidx.toNat = s.block.fidx.toNat + 1 ∨
        (s.block.fidx = 3#2 ∧ t.block.fidx = 0#2 ∧ t.block.phase ≠ s.block.phase)))

/-! ### What the command sequences add up to -/

/-- R90 and R91 (which the spec marks as derived): four EMITs give the big-endian bytes of the field in
hand, and four PUSHes leave the big-endian value of the field in its register. -/
def Obligations.FourBytesMakeAField : Prop :=
  (∀ s : State, s.block.mode = .encode → s.block.phase = .len → s.block.fidx = 0#2 →
    ∃ t, runProgram (assemble [.emitrd 4]) s = .next t ∧ t.block.phase = .type ∧
      t.reads = s.reads ++ (be32Pack s.block.len).map fun b => 0x100#32 ||| b.setWidth 32) ∧
  (∀ s : State, s.block.mode = .encode → s.block.phase = .crc → s.block.fidx = 0#2 →
    ∃ t, runProgram (assemble [.emitrd 4]) s = .next t ∧ t.block.phase = .done ∧
      t.reads = s.reads ++ (be32Pack (crcFinal s.block.crc)).map fun b => 0x100#32 ||| b.setWidth 32) ∧
  (∀ (s : State) (v : Word), s.block.mode = .parse → s.block.phase = .len → s.block.fidx = 0#2 →
    ∃ t, runProgram (assemble [.push32 v]) s = .next t ∧ t.block.phase = .type ∧
      t.block.len = v ∧ t.block.crc = s.block.crc) ∧
  ∀ (s : State) (v : Word), s.block.mode = .parse → s.block.phase = .crc → s.block.fidx = 0#2 →
    ∃ t, runProgram (assemble [.push32 v]) s = .next t ∧ t.block.wcrc = v ∧
      t.block.crc = s.block.crc ∧
      t.block.phase = if v = crcFinal s.block.crc then .done else .error

/-- R113 (which the spec marks as derived): the serialising sequence, from any state whose LEN is the
payload's length, reads exactly the wire image, each byte with OUT.V = 1, and ends in DONE. -/
def Obligations.SerialisingReadsTheWireImage : Prop :=
  ∀ (d : List Byte) (s : State), s.block.len.toNat = d.length →
    ∃ t : State, runProgram (encodeProgram d) s = .next t ∧ t.pending = [] ∧
      t.reads = s.reads ++ (wire s.block.type d).map (fun b => 0x100#32 ||| b.setWidth 32) ∧
      t.block.mode = .encode ∧ t.block.phase = .done ∧ t.block.err = .none ∧
      t.block.len = s.block.len ∧ t.block.type = s.block.type ∧ t.block.cnt = s.block.len ∧
      regRead t.block .crc = crc32 (be32Pack s.block.type ++ d)

/-- R115 (which the spec marks as derived): the parsing sequence, from any state, matches `parse_ref` for
every byte buffer. -/
def Obligations.ParsingMatchesTheReference : Prop :=
  ∀ (bytes : List Byte) (s : State),
    ∃ t : State, runProgram (parseProgram bytes) s = .next t ∧ t.pending = [] ∧
      t.reads = s.reads ∧ t.block.mode = .parse ∧
      match parseRef bytes with
      | .ok ty d => t.block.phase = .done ∧ t.block.len.toNat = d.length ∧ t.block.type = ty ∧
          t.block.cnt.toNat = d.length ∧ regRead t.block .crc = crc32 (be32Pack ty ++ d) ∧
          t.block.wcrc = crc32 (be32Pack ty ++ d)
      | .err code a b => t.block.phase = .error ∧ t.block.err = code ∧ t.block.erra = a ∧
          t.block.errb = b

/-- R115 and R133 (which the spec marks as derived), when the result arrives: DONE is reached at PUSH `12
+ L`, an error at the PUSH that completes its field, and a short input reaches neither before END; once
the result is there, the rest of the sequence changes nothing. -/
def Obligations.ParseResultArrivesWithItsField : Prop :=
  ∀ (bytes : List Byte) (n : Nat) (s : State), n ≤ bytes.length →
    ∃ u : State,
      runProgram (assemble [.cmd .initParse, .pushb (bytes.take n)]) s = .next u ∧
      (u.block.phase = .done ∨ u.block.phase = .error →
        runProgram (parseProgram bytes) s = .next u) ∧
      match parseRef bytes with
      | .ok _ d => u.block.phase ≠ .error ∧ (u.block.phase = .done ↔ 12 + d.length ≤ n)
      | .err .invalidTypeCode _ _ => u.block.phase ≠ .done ∧ (u.block.phase = .error ↔ 8 ≤ n)
      | .err .checksumMismatch _ _ => u.block.phase ≠ .done ∧
          (u.block.phase = .error ↔ 12 + declaredLength bytes ≤ n)
      | .err _ _ _ => u.block.phase ≠ .done ∧ u.block.phase ≠ .error

/-- R116 (which the spec marks as derived): feeding the bytes a serialisation gave to PARSE ends in DONE
with the same TYPE, LEN and CRC where VALID_RAW is 1, and in InvalidTypeCode where it is 0. -/
def Obligations.SerialisedChunksParseBack : Prop :=
  ∀ (d : List Byte) (s s' : State), s.block.len.toNat = d.length →
    ∃ t u : State, runProgram (encodeProgram d) s = .next t ∧
      runProgram (parseProgram ((t.reads.drop s.reads.length).map fun w => w.setWidth 8)) s' = .next u ∧
      (validRaw s.block.type = true →
        u.block.phase = .done ∧ u.block.type = s.block.type ∧ u.block.len = s.block.len ∧
        u.block.cnt = s.block.len ∧ regRead u.block .crc = regRead t.block .crc) ∧
      (validRaw s.block.type = false →
        u.block.phase = .error ∧ u.block.err = .invalidTypeCode ∧ u.block.erra = s.block.type)

/-- R82: flip any single bit of the type or payload region of a wire image and leave the checksum field as
it was; the recomputed checksum differs from the wire's, and PARSE ends in ChecksumMismatch, or in
InvalidTypeCode where the flip makes the type code invalid. -/
def Obligations.AnySingleBitFlipIsDetected : Prop :=
  ∀ (ty ty' : Word) (d d' : List Byte) (i j : Nat) (s : State),
    d.length < 2 ^ 32 → d'.length = d.length → i < 4 + d.length → j < 8 →
    be32Pack ty' ++ d' = (be32Pack ty ++ d).set i ((be32Pack ty ++ d).getD i 0#8 ^^^ (1#8 <<< j)) →
    crc32 (be32Pack ty' ++ d') ≠ crc32 (be32Pack ty ++ d) ∧
    ∃ t : State,
      runProgram (parseProgram (be32Pack (BitVec.ofNat 32 d.length) ++ be32Pack ty' ++ d'
        ++ be32Pack (crc32 (be32Pack ty ++ d)))) s = .next t ∧
      t.block.phase = .error ∧
      (validRaw ty' = true → t.block.err = .checksumMismatch ∧
        t.block.erra = crc32 (be32Pack ty ++ d) ∧ t.block.errb = crc32 (be32Pack ty' ++ d')) ∧
      (validRaw ty' = false → t.block.err = .invalidTypeCode ∧ t.block.erra = ty')
end

