-- ==== Sys2Proof/Laws/State.lean ====
section
/-! SUPPORT. One lemma for each field and each update of the state, true by `rfl`, so that no proof
unfolds a record update. -/

namespace Sys2Proof.Machine

variable (s : State) (k : Block) (v w : Word) (b : Byte) (e : ErrCode) (m : Mode)

@[simp] theorem withBlock_block : (s.withBlock k).block = k := rfl
@[simp] theorem withBlock_pending : (s.withBlock k).pending = s.pending := rfl
@[simp] theorem withBlock_reads : (s.withBlock k).reads = s.reads := rfl
@[simp] theorem withBlock_withBlock (k' : Block) : (s.withBlock k).withBlock k' = s.withBlock k' := rfl
@[simp] theorem withBlock_self : s.withBlock s.block = s := rfl

@[simp] theorem observe_block : (s.observe v).block = s.block := rfl
@[simp] theorem observe_pending : (s.observe v).pending = s.pending := rfl
@[simp] theorem observe_reads : (s.observe v).reads = s.reads ++ [v] := rfl

@[simp] theorem withFetchWord_block (n x : Nat) : (s.withFetchWord n x).block = s.block := rfl
@[simp] theorem withFetchWord_reads (n x : Nat) : (s.withFetchWord n x).reads = s.reads := rfl
@[simp] theorem withFetchWord_pending (n x : Nat) : (s.withFetchWord n x).pending
    = writeOf .cmd (BitVec.ofNat 32 (x % 2 ^ n)) :: s.pending := rfl

@[simp] theorem raise_mode : (raise e v w k).mode = k.mode := rfl
@[simp] theorem raise_phase : (raise e v w k).phase = .error := rfl
@[simp] theorem raise_fidx : (raise e v w k).fidx = k.fidx := rfl
@[simp] theorem raise_len : (raise e v w k).len = k.len := rfl
@[simp] theorem raise_type : (raise e v w k).type = k.type := rfl
@[simp] theorem raise_cnt : (raise e v w k).cnt = k.cnt := rfl
@[simp] theorem raise_crc : (raise e v w k).crc = k.crc := rfl
@[simp] theorem raise_wcrc : (raise e v w k).wcrc = k.wcrc := rfl
@[simp] theorem raise_err : (raise e v w k).err = e := rfl
@[simp] theorem raise_ephase : (raise e v w k).ephase = k.phase := rfl
@[simp] theorem raise_erra : (raise e v w k).erra = v := rfl
@[simp] theorem raise_errb : (raise e v w k).errb = w := rfl
@[simp] theorem raise_out : (raise e v w k).out = k.out := rfl
@[simp] theorem raise_outv : (raise e v w k).outv = k.outv := rfl
@[simp] theorem raise_btr : (raise e v w k).btr = k.btr := rfl

@[simp] theorem feedCrc_mode : (feedCrc b k).mode = k.mode := rfl
@[simp] theorem feedCrc_phase : (feedCrc b k).phase = k.phase := rfl
@[simp] theorem feedCrc_fidx : (feedCrc b k).fidx = k.fidx := rfl
@[simp] theorem feedCrc_len : (feedCrc b k).len = k.len := rfl
@[simp] theorem feedCrc_type : (feedCrc b k).type = k.type := rfl
@[simp] theorem feedCrc_cnt : (feedCrc b k).cnt = k.cnt := rfl
@[simp] theorem feedCrc_crc : (feedCrc b k).crc = crcUpdate k.crc b := rfl
@[simp] theorem feedCrc_wcrc : (feedCrc b k).wcrc = k.wcrc := rfl
@[simp] theorem feedCrc_err : (feedCrc b k).err = k.err := rfl
@[simp] theorem feedCrc_ephase : (feedCrc b k).ephase = k.ephase := rfl
@[simp] theorem feedCrc_erra : (feedCrc b k).erra = k.erra := rfl
@[simp] theorem feedCrc_errb : (feedCrc b k).errb = k.errb := rfl
@[simp] theorem feedCrc_out : (feedCrc b k).out = k.out := rfl
@[simp] theorem feedCrc_outv : (feedCrc b k).outv = k.outv := rfl
@[simp] theorem feedCrc_btr : (feedCrc b k).btr = k.btr := rfl

@[simp] theorem produce_mode : (produce b k).mode = k.mode := rfl
@[simp] theorem produce_phase : (produce b k).phase = k.phase := rfl
@[simp] theorem produce_fidx : (produce b k).fidx = k.fidx := rfl
@[simp] theorem produce_len : (produce b k).len = k.len := rfl
@[simp] theorem produce_type : (produce b k).type = k.type := rfl
@[simp] theorem produce_cnt : (produce b k).cnt = k.cnt := rfl
@[simp] theorem produce_crc : (produce b k).crc = k.crc := rfl
@[simp] theorem produce_wcrc : (produce b k).wcrc = k.wcrc := rfl
@[simp] theorem produce_err : (produce b k).err = k.err := rfl
@[simp] theorem produce_ephase : (produce b k).ephase = k.ephase := rfl
@[simp] theorem produce_erra : (produce b k).erra = k.erra := rfl
@[simp] theorem produce_errb : (produce b k).errb = k.errb := rfl
@[simp] theorem produce_out : (produce b k).out = b := rfl
@[simp] theorem produce_outv : (produce b k).outv = true := rfl
@[simp] theorem produce_btr : (produce b k).btr = k.btr := rfl

@[simp] theorem restart_mode : (restart m k).mode = m := rfl
@[simp] theorem restart_phase : (restart m k).phase = .len := rfl
@[simp] theorem restart_fidx : (restart m k).fidx = 0#2 := rfl
@[simp] theorem restart_len : (restart m k).len = k.len := rfl
@[simp] theorem restart_type : (restart m k).type = k.type := rfl
@[simp] theorem restart_cnt : (restart m k).cnt = 0#32 := rfl
@[simp] theorem restart_crc : (restart m k).crc = crcInit := rfl
@[simp] theorem restart_wcrc : (restart m k).wcrc = 0#32 := rfl
@[simp] theorem restart_err : (restart m k).err = .none := rfl
@[simp] theorem restart_ephase : (restart m k).ephase = .idle := rfl
@[simp] theorem restart_erra : (restart m k).erra = 0#32 := rfl
@[simp] theorem restart_errb : (restart m k).errb = 0#32 := rfl
@[simp] theorem restart_out : (restart m k).out = 0#8 := rfl
@[simp] theorem restart_outv : (restart m k).outv = false := rfl
@[simp] theorem restart_btr : (restart m k).btr = k.btr := rfl

@[simp] theorem emitNothing_mode : (emitNothing k).mode = k.mode := rfl
@[simp] theorem emitNothing_phase : (emitNothing k).phase = k.phase := rfl
@[simp] theorem emitNothing_fidx : (emitNothing k).fidx = k.fidx := rfl
@[simp] theorem emitNothing_len : (emitNothing k).len = k.len := rfl
@[simp] theorem emitNothing_type : (emitNothing k).type = k.type := rfl
@[simp] theorem emitNothing_cnt : (emitNothing k).cnt = k.cnt := rfl
@[simp] theorem emitNothing_crc : (emitNothing k).crc = k.crc := rfl
@[simp] theorem emitNothing_wcrc : (emitNothing k).wcrc = k.wcrc := rfl
@[simp] theorem emitNothing_err : (emitNothing k).err = k.err := rfl
@[simp] theorem emitNothing_ephase : (emitNothing k).ephase = k.ephase := rfl
@[simp] theorem emitNothing_erra : (emitNothing k).erra = k.erra := rfl
@[simp] theorem emitNothing_errb : (emitNothing k).errb = k.errb := rfl
@[simp] theorem emitNothing_out : (emitNothing k).out = 0#8 := rfl
@[simp] theorem emitNothing_outv : (emitNothing k).outv = false := rfl
@[simp] theorem emitNothing_btr : (emitNothing k).btr = k.btr := rfl

end Sys2Proof.Machine
end

