-- ==== Sys2Proof/Laws/Crc.lean ====
section
/-! SUPPORT. The CRC engine is linear over GF(2) (41_crc32.md R77, R83), and its update can be undone, so no
two registers meet again once they differ. -/

namespace Sys2Proof.Machine

@[simp] theorem crcFinal_crcFinal (c : Word) : crcFinal (crcFinal c) = c := by
  simp [crcFinal]

theorem crcFinal_injective {c d : Word} (h : crcFinal c = crcFinal d) : c = d := by
  have := congrArg crcFinal h
  simpa using this

/-- One turn of the loop is linear (R83). -/
theorem crcBit_xor (c d : Word) : crcBit (c ^^^ d) = crcBit c ^^^ crcBit d := by
  apply BitVec.eq_of_getLsbD_eq
  intro i hi
  unfold crcBit
  simp only [BitVec.getLsbD_xor]
  cases c.getLsbD 0 <;> cases d.getLsbD 0 <;> simp [BitVec.getLsbD_xor, BitVec.getLsbD_ushiftRight]
    <;> cases crcPolyReflected.getLsbD i <;> simp

theorem crcBits_xor (n : Nat) (c d : Word) : crcBits n (c ^^^ d) = crcBits n c ^^^ crcBits n d := by
  induction n generalizing c d with
  | zero => rfl
  | succ n ih => rw [crcBits, crcBits, crcBits, crcBit_xor, ih]

/-- Feeding a byte is linear in the register and the byte together (R77). -/
theorem crcUpdate_xor (c d : Word) (a b : Byte) :
    crcUpdate (c ^^^ d) (a ^^^ b) = crcUpdate c a ^^^ crcUpdate d b := by
  unfold crcUpdate
  rw [← crcBits_xor]
  congr 1
  apply BitVec.eq_of_getLsbD_eq
  intro i hi
  simp only [BitVec.getLsbD_xor, zext32, BitVec.getLsbD_setWidth, hi, decide_true, Bool.true_and]
  cases c.getLsbD i <;> cases d.getLsbD i <;> cases a.getLsbD i <;> cases b.getLsbD i <;> rfl

/-- A turn that gives 0 started from 0: bit 31 of the result tells which branch was taken. -/
theorem crcBit_eq_zero {c : Word} (h : crcBit c = 0#32) : c = 0#32 := by
  have h31 := congrArg (·.getLsbD 31) h
  have h0 : c.getLsbD 0 = false := by
    by_contra hne
    rw [Bool.not_eq_false] at hne
    simp only [crcBit, hne, if_true, BitVec.getLsbD_xor, BitVec.getLsbD_ushiftRight] at h31
    rw [BitVec.getLsbD_of_ge c (1 + 31) (by omega)] at h31
    revert h31; decide
  apply BitVec.eq_of_getLsbD_eq
  intro i hi
  cases i with
  | zero => simpa using h0
  | succ i =>
    have hshift : crcBit c = c >>> 1 := by simp only [crcBit, h0]; rfl
    rw [hshift] at h
    simpa [BitVec.getLsbD_ushiftRight, Nat.add_comm] using congrArg (·.getLsbD i) h

theorem crcBits_eq_zero {n : Nat} {c : Word} (h : crcBits n c = 0#32) : c = 0#32 := by
  induction n generalizing c with
  | zero => exact h
  | succ n ih => exact crcBit_eq_zero (ih h)

theorem xor_eq_zero {c d : Word} : c ^^^ d = 0#32 ↔ c = d := by
  constructor
  · intro h
    have := congrArg (· ^^^ d) h
    simpa [BitVec.xor_assoc] using this
  · rintro rfl; simp

/-- The turns of the loop can be undone. -/
theorem crcBits_injective {n : Nat} {c d : Word} (h : crcBits n c = crcBits n d) : c = d := by
  have : crcBits n (c ^^^ d) = 0#32 := by rw [crcBits_xor, h]; simp
  exact xor_eq_zero.1 (crcBits_eq_zero this)

/-- Two registers that differ still differ after any one byte. -/
theorem crcUpdate_injective_left {c d : Word} {b : Byte} (h : crcUpdate c b = crcUpdate d b) :
    c = d := by
  have := crcBits_injective h
  have := congrArg (· ^^^ zext32 b) this
  simpa [BitVec.xor_assoc] using this

/-- One register is left different by two bytes that differ. -/
theorem crcUpdate_injective_right {c : Word} {a b : Byte} (h : crcUpdate c a = crcUpdate c b) :
    a = b := by
  have := congrArg (c ^^^ ·) (crcBits_injective h)
  simp only [← BitVec.xor_assoc, BitVec.xor_self, BitVec.zero_xor] at this
  have := congrArg (·.setWidth 8) this
  simpa [zext32] using this

/-- Registers that differ still differ after any bytes. -/
theorem crcFold_injective {c d : Word} (l : List Byte) (h : l.foldl crcUpdate c = l.foldl crcUpdate d) :
    c = d := by
  induction l generalizing c d with
  | nil => exact h
  | cons b l ih => exact crcUpdate_injective_left (ih h)

/-- The property behind R82: a change of exactly one byte changes the checksum. -/
theorem crc32_ne_of_one_byte (p q : List Byte) {a b : Byte} (h : a ≠ b) :
    crc32 (p ++ a :: q) ≠ crc32 (p ++ b :: q) := by
  intro he
  have := crcFinal_injective he
  simp only [List.foldl_append, List.foldl_cons] at this
  exact h (crcUpdate_injective_right (crcFold_injective q this))

end Sys2Proof.Machine
end

