-- ==== Sys2Proof/Laws/Decode.lean ====
section
/-! SUPPORT. Small lemmas of the decoder and the encoder: a word is its three fields, and what the fields
of a legal word are. -/

namespace Sys2Proof

/-- A word is determined by OPC, RSV and ARG. -/
theorem word_eq_of_fields {w v : Word} (hopc : opcField w = opcField v)
    (hrsv : rsvField w = rsvField v) (harg : argField w = argField v) : w = v := by
  apply BitVec.eq_of_getLsbD_eq
  intro i hi
  by_cases h8 : i < 8
  · have := congrArg (·.getLsbD i) harg
    simpa [argField, BitVec.getLsbD_extractLsb', h8] using this
  · by_cases h24 : i < 24
    · have := congrArg (·.getLsbD (i - 8)) hrsv
      simpa [rsvField, BitVec.getLsbD_extractLsb', show i - 8 < 16 by omega,
        show 8 + (i - 8) = i by omega] using this
    · have := congrArg (·.getLsbD (i - 24)) hopc
      simpa [opcField, BitVec.getLsbD_extractLsb', show i - 24 < 8 by omega,
        show 24 + (i - 24) = i by omega] using this

/-- Every instruction's operands are in the ranges of R55. -/
theorem Instr.wellFormed_eq_true (i : Instr) : i.wellFormed = true := by
  cases i with
  | push b => simp [Instr.wellFormed]; omega
  | btest sel idx => simp [Instr.wellFormed]; omega
  | _ => rfl

/-- An encoded instruction has an assigned opcode and RSV = 0. -/
theorem encode_opc_rsv (i : Instr) :
    opcField (encode i) ≤ 0x07#8 ∧ rsvField (encode i) = 0#16 := by
  cases i with
  | push b => revert b; decide +kernel
  | btest sel idx => revert sel idx; decide +kernel
  | _ => decide

/-- An encoded instruction lies in its own row of the opcode map. -/
theorem encode_in_row (i : Instr) : rowMatches (encode i) (opcodeRow i) = true := by
  cases i with
  | push b => revert b; decide +kernel
  | btest sel idx => revert sel idx; decide +kernel
  | _ => decide

/-- A form decodes only to an instruction whose word has that opcode and that argument. -/
theorem decodeForm_ok {opc arg : Byte} {i : Instr} (h : decodeForm opc arg = .ok i) :
    opcField (encode i) = opc ∧ argField (encode i) = arg := by
  have all : ∀ o < 8, ∀ a : Byte, (match decodeForm (BitVec.ofNat 8 o) a with
      | .ok j => decide (opcField (encode j) = BitVec.ofNat 8 o ∧ argField (encode j) = a)
      | .error _ => true) = true := by
    intro o ho
    interval_cases o <;> decide +kernel
  by_cases ho : opc.toNat < 8
  · have := all opc.toNat ho arg
    rw [BitVec.ofNat_toNat, BitVec.setWidth_eq, h] at this
    simpa using this
  · unfold decodeForm at h
    split at h <;> first | omega | cases h

/-- What a legal word's fields are. -/
theorem decode_ok_fields {w : Word} {i : Instr} (h : decode w = .ok i) :
    rsvField w = 0#16 ∧ decodeForm (opcField w) (argField w) = .ok i := by
  unfold decode at h
  split at h
  · cases h
  · split at h
    · cases h
    · rename_i hrsv
      exact ⟨by simpa using hrsv, h⟩

end Sys2Proof
end

