-- ==== Sys2Proof/Laws/Step.lean ====
section
/-! SUPPORT. What a command, an access and a step can do, said once: later proofs cite these and do not
unfold `exec`, `perform` or `step`. -/

namespace Sys2Proof.Machine

/-- The block a command leaves. -/
def blockAfter (i : Instr) (k : Block) : Block :=
  match i with
  | .nop => k
  | .initParse => { restart .parse k with len := 0#32, type := 0#32 }
  | .initEncode => restart .encode k
  | .push b => pushBlock b k
  | .endInput => endBlock k
  | .emit => emitBlock k
  | .btest sel idx => { k with btr := bitTest (byteOf k.type sel) idx.toNat }
  | .sreset => Block.reset

/-- Every command answers a next state, and changes the block only. -/
theorem exec_eq (i : Instr) (s : State) : exec i s = .next (s.withBlock (blockAfter i s.block)) := by
  cases i <;> rfl

/-- The slots and their offsets: the window's 16 words and nothing else (R34). -/
theorem regAt_eq_some {n : Nat} {r : Reg} : regAt n = some r ↔ n = regOffset r := by
  constructor
  · intro h
    unfold regAt at h
    split at h <;> first | (cases h; rfl) | cases h
  · rintro rfl
    cases r with
    | reserved k => revert k; decide
    | _ => rfl

theorem regOffset_lt (r : Reg) : regOffset r < 64 := by
  cases r with
  | reserved k => simp [regOffset]; omega
  | _ => decide

theorem regOffset_mod (r : Reg) : regOffset r % 4 = 0 := by
  cases r with
  | reserved k => simp [regOffset]
  | _ => decide

/-- A multiple of 4 inside the window is some slot's offset (R33). -/
theorem exists_regOffset {n : Nat} (hlt : n < 64) (hmod : n % 4 = 0) : ∃ r, n = regOffset r := by
  have all : ∀ n < 64, n % 4 = 0 → (regAt n).isSome = true := by decide
  obtain ⟨r, hr⟩ := Option.isSome_iff_exists.1 (all n hlt hmod)
  exact ⟨r, regAt_eq_some.1 hr⟩

/-- Which accesses are admitted, and to which register (R38, R120). -/
theorem accessTarget_eq_ok {a : Access} {r : Reg} :
    accessTarget a = .ok r ↔ a.width = 32 ∧ a.off = regOffset r := by
  have hlt := regOffset_lt r
  by_cases hw : a.width = 32
  · by_cases hout : a.off < 0 ∨ 64 ≤ a.off
    · have : accessTarget a = .error .accessOutsideWindow := by
        simp [accessTarget, Config.accessBits, Config.windowBytes, hw, hout]
      rw [this]
      constructor
      · intro h; cases h
      · rintro ⟨-, h⟩; omega
    · cases hr : regAt a.off.toNat with
      | some r' =>
        have : accessTarget a = .ok r' := by
          simp [accessTarget, Config.accessBits, Config.windowBytes, hw, hout, hr]
        rw [this]
        have hoff := regAt_eq_some.1 hr
        constructor
        · intro h; cases h; exact ⟨hw, by omega⟩
        · rintro ⟨-, h⟩
          rw [regAt_eq_some.2 (show a.off.toNat = regOffset r by omega)] at hr
          cases hr; rfl
      | none =>
        have : accessTarget a = .error .accessMisaligned := by
          simp [accessTarget, Config.accessBits, Config.windowBytes, hw, hout, hr]
        rw [this]
        constructor
        · intro h; cases h
        · rintro ⟨-, h⟩
          rw [regAt_eq_some.2 (show a.off.toNat = regOffset r by omega)] at hr
          cases hr
  · have : accessTarget a = .error .accessWidth := by simp [accessTarget, Config.accessBits, hw]
    rw [this]
    constructor
    · intro h; cases h
    · rintro ⟨h, -⟩; exact absurd h hw

/-- R38 in numbers. -/
theorem accessWellFormed_iff (a : Access) : a.wellFormed = true ↔
    a.width = 32 ∧ 0 ≤ a.off ∧ a.off < 64 ∧ a.off % 4 = 0 := by
  simp only [Access.wellFormed, Bool.and_eq_true, decide_eq_true_eq, and_assoc]
  rfl

/-- An access is admitted exactly when it is well-formed (R38). -/
theorem admitted_iff_wellFormed (a : Access) : (∃ r, accessTarget a = .ok r) ↔ a.wellFormed = true := by
  simp only [accessTarget_eq_ok, accessWellFormed_iff]
  constructor
  · rintro ⟨r, hw, ho⟩
    have := regOffset_lt r
    have := regOffset_mod r
    omega
  · rintro ⟨hw, h0, h64, h4⟩
    obtain ⟨r, hr⟩ := exists_regOffset (n := a.off.toNat) (by omega) (by omega)
    exact ⟨r, hw, by omega⟩

/-- An access to a register, read or write, is the event `readOf` or `writeOf` of that register. -/
theorem perform_readOf (r : Reg) (s : State) : perform (readOf r) s = .next (s.observe (regRead s.block r)) := by
  have : accessTarget ⟨regOffset r, Config.accessBits, .read⟩ = .ok r := accessTarget_eq_ok.2 ⟨rfl, rfl⟩
  simp [perform, readOf, performAccess, this]

theorem perform_writeOf (r : Reg) (v : Word) (s : State) : perform (writeOf r v) s = regWrite r v s := by
  have : accessTarget ⟨regOffset r, Config.accessBits, .write v⟩ = .ok r := accessTarget_eq_ok.2 ⟨rfl, rfl⟩
  simp [perform, writeOf, performAccess, this]

/-- The block a write leaves (R122 to R124). -/
def blockWritten (r : Reg) (v : Word) (k : Block) : Block :=
  match r with
  | .cmd => match decode v with
    | .ok i => blockAfter i k
    | .error _ => illegalWord v k
  | .len => writeLen v k
  | .type => writeType v k
  | _ => k

/-- Every write to a register answers a next state, and changes the block only. -/
theorem regWrite_eq (r : Reg) (v : Word) (s : State) :
    regWrite r v s = .next (s.withBlock (blockWritten r v s.block)) := by
  cases r with
  | cmd =>
    simp only [regWrite, writeCmd, blockWritten]
    cases decode v with
    | ok i => exact exec_eq i s
    | error e => rfl
  | _ => rfl

/-- Everything one event can do, when it does anything: a read, a write, or the hardware reset. -/
theorem perform_cases {e : Event} {s t : State} (h : perform e s = .next t) :
    (∃ r, e = readOf r ∧ t = s.observe (regRead s.block r)) ∨
    (∃ r v, e = writeOf r v ∧ t = s.withBlock (blockWritten r v s.block)) ∨
    (e = .hardReset ∧ t = s.withBlock Block.reset) := by
  cases e with
  | access a =>
    simp only [perform, performAccess] at h
    split at h
    · cases h
    · rename_i r hr
      obtain ⟨hw, ho⟩ := accessTarget_eq_ok.1 hr
      obtain ⟨off, width, op⟩ := a
      simp only at hw ho h
      subst hw ho
      cases op with
      | read => exact .inl ⟨r, rfl, by cases h; rfl⟩
      | write v =>
        change regWrite r v s = _ at h
        rw [regWrite_eq] at h
        exact .inr (.inl ⟨r, v, rfl, by cases h; rfl⟩)
  | hardReset => exact .inr (.inr ⟨rfl, by cases h; rfl⟩)
  | accessDuringReset a => cases h

/-- A step with nothing pending waits (R13). -/
theorem step_nil {s : State} (h : s.pending = []) : step s = .next s := by rw [step, h]

/-- A step takes the next event (R43). -/
theorem step_cons {s : State} {e : Event} {rest : List Event} (h : s.pending = e :: rest) :
    step s = perform e { s with pending := rest } := by rw [step, h]

end Sys2Proof.Machine
end

