-- ==== Sys2Proof/Laws/Stream.lean ====
section
/-! SUPPORT. Everything each shared operation and each stream command can do to a block, said once
(43_commands.md): later proofs cite these case lemmas and do not unfold the commands. -/

namespace Sys2Proof.Machine

/-- The end of a field byte: the next byte, or the phase that follows. -/
theorem advanceField_cases (p : Phase) (k : Block) :
    (k.fidx = 3#2 ∧ advanceField p k = { k with fidx := 0#2, phase := p }) ∨
    (k.fidx ≠ 3#2 ∧ advanceField p k = { k with fidx := k.fidx + 1#2 }) := by
  by_cases h : k.fidx = 3#2 <;> simp [advanceField, h]

/-- `leave_payload()` (R101). -/
theorem leavePayload_cases (k : Block) :
    (k.cnt = k.len ∧ leavePayload k = { k with phase := .crc, fidx := 0#2 }) ∨
    (k.cnt ≠ k.len ∧ leavePayload k = raise .lengthMismatch k.len k.cnt k) := by
  by_cases h : k.cnt = k.len <;> simp [leavePayload, h]

/-- What PUSH does, by mode and phase (R96, R54). -/
theorem pushBlock_cases (b : Byte) (k : Block) :
    (k.phase = .error ∧ pushBlock b k = k) ∨
    (k.mode = .parse ∧ k.phase = .len ∧ pushBlock b k = pushParseLen b k) ∨
    (k.mode = .parse ∧ k.phase = .type ∧ pushBlock b k = pushParseType b k) ∨
    (k.mode = .parse ∧ k.phase = .payload ∧ pushBlock b k = pushParsePayload b k) ∨
    (k.mode = .parse ∧ k.phase = .crc ∧ pushBlock b k = pushParseCrc b k) ∨
    (k.mode = .parse ∧ k.phase = .done ∧ pushBlock b k = k) ∨
    (k.mode = .encode ∧ k.phase = .payload ∧ pushBlock b k = pushEncodePayload b k) ∨
    (k.phase ≠ .error ∧ pushBlock b k = refuseCommand (.push b) k) := by
  cases hm : k.mode <;> cases hp : k.phase <;> simp [pushBlock, hm, hp]

/-- R98. -/
theorem pushParseLen_cases (b : Byte) (k : Block) :
    (k.fidx = 3#2 ∧
      pushParseLen b k = { k with len := be32ShiftIn k.len b, fidx := 0#2, phase := .type }) ∨
    (k.fidx ≠ 3#2 ∧
      pushParseLen b k = { k with len := be32ShiftIn k.len b, fidx := k.fidx + 1#2 }) := by
  by_cases h : k.fidx = 3#2 <;> simp [pushParseLen, advanceField, h]

/-- R99: the type byte taken, and at the fourth one of its four outcomes. -/
theorem pushParseType_cases (b : Byte) (k : Block) :
    let k' : Block := { k with
      type := setByte k.type k.fidx b, crc := crcUpdate k.crc b, fidx := 0#2 }
    (k.fidx ≠ 3#2 ∧ pushParseType b k = { k' with fidx := k.fidx + 1#2 }) ∨
    (k.fidx = 3#2 ∧ validRaw k'.type = false ∧
      pushParseType b k = raise .invalidTypeCode k'.type 0#32 k') ∨
    (k.fidx = 3#2 ∧ validRaw k'.type = true ∧ k.len = 0#32 ∧ k.cnt = k.len ∧
      pushParseType b k = { k' with phase := .crc }) ∨
    (k.fidx = 3#2 ∧ validRaw k'.type = true ∧ k.len = 0#32 ∧ k.cnt ≠ k.len ∧
      pushParseType b k = raise .lengthMismatch k.len k.cnt k') ∨
    (k.fidx = 3#2 ∧ validRaw k'.type = true ∧ k.len ≠ 0#32 ∧
      pushParseType b k = { k' with phase := .payload }) := by
  by_cases h : k.fidx = 3#2
  · by_cases hv : validRaw (setByte k.type k.fidx b) = false
    · simp_all [pushParseType, typeReceived, feedCrc]
    · by_cases hl : k.len = 0#32
      · by_cases hc : k.cnt = 0#32 <;>
          simp_all [pushParseType, typeReceived, leavePayload, feedCrc]
      · simp_all [pushParseType, typeReceived, feedCrc]
  · simp [pushParseType, feedCrc, h]

/-- R100: `leave_payload` is called only with `cnt = len`, so its defensive branch is not taken. -/
theorem pushParsePayload_cases (b : Byte) (k : Block) :
    (k.cnt + 1#32 ≠ k.len ∧
      pushParsePayload b k = { k with crc := crcUpdate k.crc b, cnt := k.cnt + 1#32 }) ∨
    (k.cnt + 1#32 = k.len ∧
      pushParsePayload b k
        = { k with crc := crcUpdate k.crc b, cnt := k.cnt + 1#32, phase := .crc, fidx := 0#2 }) := by
  by_cases h : k.cnt + 1#32 = k.len <;> simp [pushParsePayload, leavePayload, feedCrc, h]

/-- R102: the checksum byte taken, and at the fourth one of its two outcomes. -/
theorem pushParseCrc_cases (b : Byte) (k : Block) :
    let k' : Block := { k with wcrc := be32ShiftIn k.wcrc b, fidx := 0#2 }
    (k.fidx ≠ 3#2 ∧ pushParseCrc b k = { k' with fidx := k.fidx + 1#2 }) ∨
    (k.fidx = 3#2 ∧ k'.wcrc = crcFinal k.crc ∧ pushParseCrc b k = { k' with phase := .done }) ∨
    (k.fidx = 3#2 ∧ k'.wcrc ≠ crcFinal k.crc ∧
      pushParseCrc b k = raise .checksumMismatch k'.wcrc (crcFinal k.crc) k') := by
  by_cases h : k.fidx = 3#2
  · by_cases hw : be32ShiftIn k.wcrc b = crcFinal k.crc <;>
      simp [pushParseCrc, checksumReceived, h, hw]
  · simp [pushParseCrc, h]

/-- R104. -/
theorem pushEncodePayload_cases (b : Byte) (k : Block) :
    (k.cnt + 1#32 ≠ k.len ∧
      pushEncodePayload b k
        = { k with crc := crcUpdate k.crc b, cnt := k.cnt + 1#32, out := b, outv := true }) ∨
    (k.cnt + 1#32 = k.len ∧
      pushEncodePayload b k
        = { k with crc := crcUpdate k.crc b, cnt := k.cnt + 1#32, out := b, outv := true,
                   phase := .crc, fidx := 0#2 }) := by
  by_cases h : k.cnt + 1#32 = k.len <;> simp [pushEncodePayload, produce, feedCrc, h]

/-- What END does, by mode and phase (R106, R54). -/
theorem endBlock_cases (k : Block) :
    (k.phase = .error ∧ endBlock k = k) ∨
    (k.mode = .parse ∧ (k.phase = .len ∨ k.phase = .type ∨ k.phase = .payload ∨ k.phase = .crc) ∧
      endBlock k = raise .truncatedInput 0#32 0#32 k) ∨
    (k.phase = .done ∧ endBlock k = k) ∨
    (k.phase ≠ .error ∧ endBlock k = refuseCommand .endInput k) := by
  cases hm : k.mode <;> cases hp : k.phase <;> simp [endBlock, hm, hp]

/-- What EMIT does, by mode and phase (R107, R54). -/
theorem emitBlock_cases (k : Block) :
    (k.phase = .error ∧ emitBlock k = k) ∨
    (k.mode = .encode ∧ k.phase = .len ∧ emitBlock k = emitLen k) ∨
    (k.mode = .encode ∧ k.phase = .type ∧ emitBlock k = emitType k) ∨
    (k.mode = .encode ∧ k.phase = .crc ∧ emitBlock k = emitCrc k) ∨
    (k.mode = .encode ∧ (k.phase = .payload ∨ k.phase = .done) ∧ emitBlock k = emitNothing k) ∨
    (k.phase ≠ .error ∧ emitBlock k = refuseCommand .emit k) := by
  cases hm : k.mode <;> cases hp : k.phase <;> simp [emitBlock, hm, hp]

/-- R108. -/
theorem emitLen_cases (k : Block) :
    let k' := produce (byteOf k.len k.fidx) k
    (k.fidx = 3#2 ∧ emitLen k = { k' with fidx := 0#2, phase := .type }) ∨
    (k.fidx ≠ 3#2 ∧ emitLen k = { k' with fidx := k.fidx + 1#2 }) :=
  advanceField_cases _ (produce (byteOf k.len k.fidx) k)

/-- R109: an empty payload is skipped. -/
theorem emitType_cases (k : Block) :
    let k' := feedCrc (byteOf k.type k.fidx) (produce (byteOf k.type k.fidx) k)
    (k.fidx = 3#2 ∧ k.len = 0#32 ∧ emitType k = { k' with fidx := 0#2, phase := .crc }) ∨
    (k.fidx = 3#2 ∧ k.len ≠ 0#32 ∧ emitType k = { k' with fidx := 0#2, phase := .payload }) ∨
    (k.fidx ≠ 3#2 ∧ emitType k = { k' with fidx := k.fidx + 1#2 }) := by
  by_cases h : k.fidx = 3#2 <;> by_cases hl : k.len = 0#32 <;>
    simp [emitType, advanceField, produce, feedCrc, h, hl]

/-- R110. -/
theorem emitCrc_cases (k : Block) :
    let k' := produce (byteOf (crcFinal k.crc) k.fidx) k
    (k.fidx = 3#2 ∧ emitCrc k = { k' with fidx := 0#2, phase := .done }) ∨
    (k.fidx ≠ 3#2 ∧ emitCrc k = { k' with fidx := k.fidx + 1#2 }) :=
  advanceField_cases _ (produce (byteOf (crcFinal k.crc) k.fidx) k)

/-- An illegal word (R51, R54). -/
theorem illegalWord_cases (w : Word) (k : Block) :
    (k.phase = .error ∧ illegalWord w k = k) ∨
    (k.phase ≠ .error ∧ illegalWord w k = raise .illegalCommand w 0#32 k) := by
  by_cases h : k.phase = .error <;> simp [illegalWord, h]

/-- The quiescent phases of R122. -/
theorem quiescent_iff (p : Phase) : quiescent p = true ↔ p = .idle ∨ p = .done ∨ p = .error := by
  cases p <;> simp [quiescent]

/-- A write of LEN (R122). -/
theorem writeLen_cases (v : Word) (k : Block) :
    (quiescent k.phase = true ∧ writeLen v k = { k with len := v }) ∨
    (quiescent k.phase = false ∧ writeLen v k = raise .protocolError v 0x08#32 k) := by
  by_cases h : quiescent k.phase = true <;> simp [writeLen, h, regOffset]

/-- A write of TYPE (R122). -/
theorem writeType_cases (v : Word) (k : Block) :
    (quiescent k.phase = true ∧ writeType v k = { k with type := v }) ∨
    (quiescent k.phase = false ∧ writeType v k = raise .protocolError v 0x0C#32 k) := by
  by_cases h : quiescent k.phase = true <;> simp [writeType, h, regOffset]

end Sys2Proof.Machine
end

