-- ==== Sys2Proof/Laws/Moves.lean ====
section
/-! SUPPORT. Every change a command or an event can make to the block, as one list of moves, each with the
condition under which its rule makes it.  A property of all steps is proved by cases on these lists. -/

namespace Sys2Proof.Machine

/-- The commands that phase ERROR ignores and that a mode and phase can refuse (R54, R126). -/
abbrev Instr.isStream (i : Instr) : Prop := (∃ b, i = .push b) ∨ i = .endInput ∨ i = .emit

/-- The moves of one command, rule by rule. -/
inductive Move : Instr → Block → Block → Prop
  | nop (k) : Move .nop k k
  | initParse (k) : Move .initParse k { restart .parse k with len := 0#32, type := 0#32 }
  | initEncode (k) : Move .initEncode k (restart .encode k)
  | sreset (k) : Move .sreset k Block.reset
  | btest (sel idx k) :
      Move (.btest sel idx) k { k with btr := bitTest (byteOf k.type sel) idx.toNat }
  /-- R130 -/
  | ignored (i k) (hi : Instr.isStream i) (hp : k.phase = .error) : Move i k k
  /-- R103 and R106 -/
  | ignoredDone (i k) (hi : (∃ b, i = .push b) ∨ i = .endInput) (hp : k.phase = .done) : Move i k k
  /-- R97, R105, R106, R107 -/
  | refused (i k) (hi : Instr.isStream i) (hp : k.phase ≠ .error) : Move i k (refuseCommand i k)
  /-- R98 -/
  | lenByte (b k) (hm : k.mode = .parse) (hp : k.phase = .len) (hf : k.fidx ≠ 3#2) :
      Move (.push b) k { k with len := be32ShiftIn k.len b, fidx := k.fidx + 1#2 }
  | lenLast (b k) (hm : k.mode = .parse) (hp : k.phase = .len) (hf : k.fidx = 3#2) :
      Move (.push b) k { k with len := be32ShiftIn k.len b, fidx := 0#2, phase := .type }
  /-- R99 -/
  | typeByte (b k) (hm : k.mode = .parse) (hp : k.phase = .type) (hf : k.fidx ≠ 3#2) :
      Move (.push b) k { k with
        type := setByte k.type k.fidx b, crc := crcUpdate k.crc b, fidx := k.fidx + 1#2 }
  | typeInvalid (b k) (hm : k.mode = .parse) (hp : k.phase = .type) (hf : k.fidx = 3#2)
      (hv : validRaw (setByte k.type k.fidx b) = false) :
      Move (.push b) k (raise .invalidTypeCode (setByte k.type k.fidx b) 0#32 { k with
        type := setByte k.type k.fidx b, crc := crcUpdate k.crc b, fidx := 0#2 })
  | typeEmpty (b k) (hm : k.mode = .parse) (hp : k.phase = .type) (hf : k.fidx = 3#2)
      (hv : validRaw (setByte k.type k.fidx b) = true) (hl : k.len = 0#32) (hc : k.cnt = k.len) :
      Move (.push b) k { k with
        type := setByte k.type k.fidx b, crc := crcUpdate k.crc b, fidx := 0#2, phase := .crc }
  | typeMismatch (b k) (hm : k.mode = .parse) (hp : k.phase = .type) (hf : k.fidx = 3#2)
      (hv : validRaw (setByte k.type k.fidx b) = true) (hl : k.len = 0#32) (hc : k.cnt ≠ k.len) :
      Move (.push b) k (raise .lengthMismatch k.len k.cnt { k with
        type := setByte k.type k.fidx b, crc := crcUpdate k.crc b, fidx := 0#2 })
  | typeLast (b k) (hm : k.mode = .parse) (hp : k.phase = .type) (hf : k.fidx = 3#2)
      (hv : validRaw (setByte k.type k.fidx b) = true) (hl : k.len ≠ 0#32) :
      Move (.push b) k { k with
        type := setByte k.type k.fidx b, crc := crcUpdate k.crc b, fidx := 0#2, phase := .payload }
  /-- R100 and R101 -/
  | payloadByte (b k) (hm : k.mode = .parse) (hp : k.phase = .payload)
      (hc : k.cnt + 1#32 ≠ k.len) :
      Move (.push b) k { k with crc := crcUpdate k.crc b, cnt := k.cnt + 1#32 }
  | payloadLast (b k) (hm : k.mode = .parse) (hp : k.phase = .payload)
      (hc : k.cnt + 1#32 = k.len) :
      Move (.push b) k { k with
        crc := crcUpdate k.crc b, cnt := k.cnt + 1#32, phase := .crc, fidx := 0#2 }
  /-- R102 -/
  | crcByte (b k) (hm : k.mode = .parse) (hp : k.phase = .crc) (hf : k.fidx ≠ 3#2) :
      Move (.push b) k { k with wcrc := be32ShiftIn k.wcrc b, fidx := k.fidx + 1#2 }
  | crcMatch (b k) (hm : k.mode = .parse) (hp : k.phase = .crc) (hf : k.fidx = 3#2)
      (hw : be32ShiftIn k.wcrc b = crcFinal k.crc) :
      Move (.push b) k { k with wcrc := be32ShiftIn k.wcrc b, fidx := 0#2, phase := .done }
  | crcMismatch (b k) (hm : k.mode = .parse) (hp : k.phase = .crc) (hf : k.fidx = 3#2)
      (hw : be32ShiftIn k.wcrc b ≠ crcFinal k.crc) :
      Move (.push b) k (raise .checksumMismatch (be32ShiftIn k.wcrc b) (crcFinal k.crc) { k with
        wcrc := be32ShiftIn k.wcrc b, fidx := 0#2 })
  /-- R104 -/
  | echoByte (b k) (hm : k.mode = .encode) (hp : k.phase = .payload) (hc : k.cnt + 1#32 ≠ k.len) :
      Move (.push b) k { k with
        crc := crcUpdate k.crc b, cnt := k.cnt + 1#32, out := b, outv := true }
  | echoLast (b k) (hm : k.mode = .encode) (hp : k.phase = .payload) (hc : k.cnt + 1#32 = k.len) :
      Move (.push b) k { k with
        crc := crcUpdate k.crc b, cnt := k.cnt + 1#32, out := b, outv := true,
        phase := .crc, fidx := 0#2 }
  /-- R106 -/
  | truncated (k) (hm : k.mode = .parse)
      (hp : k.phase = .len ∨ k.phase = .type ∨ k.phase = .payload ∨ k.phase = .crc) :
      Move .endInput k (raise .truncatedInput 0#32 0#32 k)
  /-- R108 -/
  | emitLenByte (k) (hm : k.mode = .encode) (hp : k.phase = .len) (hf : k.fidx ≠ 3#2) :
      Move .emit k { k with out := byteOf k.len k.fidx, outv := true, fidx := k.fidx + 1#2 }
  | emitLenLast (k) (hm : k.mode = .encode) (hp : k.phase = .len) (hf : k.fidx = 3#2) :
      Move .emit k { k with
        out := byteOf k.len k.fidx, outv := true, fidx := 0#2, phase := .type }
  /-- R109 -/
  | emitTypeByte (k) (hm : k.mode = .encode) (hp : k.phase = .type) (hf : k.fidx ≠ 3#2) :
      Move .emit k { k with
        out := byteOf k.type k.fidx, outv := true, crc := crcUpdate k.crc (byteOf k.type k.fidx),
        fidx := k.fidx + 1#2 }
  | emitTypeEmpty (k) (hm : k.mode = .encode) (hp : k.phase = .type) (hf : k.fidx = 3#2)
      (hl : k.len = 0#32) :
      Move .emit k { k with
        out := byteOf k.type k.fidx, outv := true, crc := crcUpdate k.crc (byteOf k.type k.fidx),
        fidx := 0#2, phase := .crc }
  | emitTypeLast (k) (hm : k.mode = .encode) (hp : k.phase = .type) (hf : k.fidx = 3#2)
      (hl : k.len ≠ 0#32) :
      Move .emit k { k with
        out := byteOf k.type k.fidx, outv := true, crc := crcUpdate k.crc (byteOf k.type k.fidx),
        fidx := 0#2, phase := .payload }
  /-- R110 -/
  | emitCrcByte (k) (hm : k.mode = .encode) (hp : k.phase = .crc) (hf : k.fidx ≠ 3#2) :
      Move .emit k { k with
        out := byteOf (crcFinal k.crc) k.fidx, outv := true, fidx := k.fidx + 1#2 }
  | emitCrcLast (k) (hm : k.mode = .encode) (hp : k.phase = .crc) (hf : k.fidx = 3#2) :
      Move .emit k { k with
        out := byteOf (crcFinal k.crc) k.fidx, outv := true, fidx := 0#2, phase := .done }
  /-- R111 -/
  | emitNone (k) (hm : k.mode = .encode) (hp : k.phase = .payload ∨ k.phase = .done) :
      Move .emit k { k with out := 0#8, outv := false }

/-- Every command makes one of its moves. -/
theorem move_blockAfter (i : Instr) (k : Block) : Move i k (blockAfter i k) := by
  cases i with
  | nop => exact .nop k
  | initParse => exact .initParse k
  | initEncode => exact .initEncode k
  | sreset => exact .sreset k
  | btest sel idx => exact .btest sel idx k
  | push b =>
    have hi : Instr.isStream (.push b) := .inl ⟨b, rfl⟩
    show Move _ _ (pushBlock b k)
    rcases pushBlock_cases b k with ⟨hp, h⟩ | ⟨hm, hp, h⟩ | ⟨hm, hp, h⟩ | ⟨hm, hp, h⟩ | ⟨hm, hp, h⟩ |
      ⟨-, hp, h⟩ | ⟨hm, hp, h⟩ | ⟨hp, h⟩ <;> rw [h]
    · exact .ignored _ _ hi hp
    · rcases pushParseLen_cases b k with ⟨hf, h⟩ | ⟨hf, h⟩ <;> rw [h]
      · exact .lenLast b k hm hp hf
      · exact .lenByte b k hm hp hf
    · rcases pushParseType_cases b k with ⟨hf, h⟩ | ⟨hf, hv, h⟩ | ⟨hf, hv, hl, hc, h⟩ |
        ⟨hf, hv, hl, hc, h⟩ | ⟨hf, hv, hl, h⟩ <;> rw [h]
      · exact .typeByte b k hm hp hf
      · exact .typeInvalid b k hm hp hf hv
      · exact .typeEmpty b k hm hp hf hv hl hc
      · exact .typeMismatch b k hm hp hf hv hl hc
      · exact .typeLast b k hm hp hf hv hl
    · rcases pushParsePayload_cases b k with ⟨hc, h⟩ | ⟨hc, h⟩ <;> rw [h]
      · exact .payloadByte b k hm hp hc
      · exact .payloadLast b k hm hp hc
    · rcases pushParseCrc_cases b k with ⟨hf, h⟩ | ⟨hf, hw, h⟩ | ⟨hf, hw, h⟩ <;> rw [h]
      · exact .crcByte b k hm hp hf
      · exact .crcMatch b k hm hp hf hw
      · exact .crcMismatch b k hm hp hf hw
    · exact .ignoredDone _ _ (.inl ⟨b, rfl⟩) hp
    · rcases pushEncodePayload_cases b k with ⟨hc, h⟩ | ⟨hc, h⟩ <;> rw [h]
      · exact .echoByte b k hm hp hc
      · exact .echoLast b k hm hp hc
    · exact .refused _ _ hi hp
  | endInput =>
    have hi : Instr.isStream .endInput := .inr (.inl rfl)
    show Move _ _ (endBlock k)
    rcases endBlock_cases k with ⟨hp, h⟩ | ⟨hm, hp, h⟩ | ⟨hp, h⟩ | ⟨hp, h⟩ <;> rw [h]
    · exact .ignored _ _ hi hp
    · exact .truncated k hm hp
    · exact .ignoredDone _ _ (.inr rfl) hp
    · exact .refused _ _ hi hp
  | emit =>
    have hi : Instr.isStream .emit := .inr (.inr rfl)
    show Move _ _ (emitBlock k)
    rcases emitBlock_cases k with ⟨hp, h⟩ | ⟨hm, hp, h⟩ | ⟨hm, hp, h⟩ | ⟨hm, hp, h⟩ | ⟨hm, hp, h⟩ |
      ⟨hp, h⟩ <;> rw [h]
    · exact .ignored _ _ hi hp
    · rcases emitLen_cases k with ⟨hf, h⟩ | ⟨hf, h⟩ <;> rw [h]
      · exact .emitLenLast k hm hp hf
      · exact .emitLenByte k hm hp hf
    · rcases emitType_cases k with ⟨hf, hl, h⟩ | ⟨hf, hl, h⟩ | ⟨hf, h⟩ <;> rw [h]
      · exact .emitTypeEmpty k hm hp hf hl
      · exact .emitTypeLast k hm hp hf hl
      · exact .emitTypeByte k hm hp hf
    · rcases emitCrc_cases k with ⟨hf, h⟩ | ⟨hf, h⟩ <;> rw [h]
      · exact .emitCrcLast k hm hp hf
      · exact .emitCrcByte k hm hp hf
    · exact .emitNone k hm hp
    · exact .refused _ _ hi hp

/-- The move behind a command's next state. -/
theorem move_of_exec {i : Instr} {s t : State} (h : exec i s = .next t) : Move i s.block t.block := by
  rw [exec_eq] at h
  cases h
  exact move_blockAfter i s.block

/-- The moves of one event. -/
inductive EventMove : Event → Block → Block → Prop
  /-- R40: a read, or a write to a read-only or reserved offset. -/
  | none (e k) : EventMove e k k
  /-- R54, a legal word -/
  | command (w i k k') (hd : decode w = .ok i) (h : Move i k k') : EventMove (writeOf .cmd w) k k'
  /-- R54, an illegal word in phase ERROR -/
  | illegalIgnored (w e k) (hd : decode w = .error e) (hp : k.phase = .error) :
      EventMove (writeOf .cmd w) k k
  /-- R51 -/
  | illegal (w e k) (hd : decode w = .error e) (hp : k.phase ≠ .error) :
      EventMove (writeOf .cmd w) k (raise .illegalCommand w 0#32 k)
  /-- R122 -/
  | lenWritten (v k) (hp : quiescent k.phase = true) : EventMove (writeOf .len v) k { k with len := v }
  | lenRefused (v k) (hp : quiescent k.phase = false) :
      EventMove (writeOf .len v) k (raise .protocolError v 0x08#32 k)
  | typeWritten (v k) (hp : quiescent k.phase = true) :
      EventMove (writeOf .type v) k { k with type := v }
  | typeRefused (v k) (hp : quiescent k.phase = false) :
      EventMove (writeOf .type v) k (raise .protocolError v 0x0C#32 k)
  /-- R139 -/
  | hardReset (k) : EventMove .hardReset k Block.reset

/-- A write makes one of its moves. -/
theorem eventMove_blockWritten (r : Reg) (v : Word) (k : Block) :
    EventMove (writeOf r v) k (blockWritten r v k) := by
  unfold blockWritten
  split
  · split
    · rename_i i hd
      exact .command v i k _ hd (move_blockAfter i k)
    · rename_i e hd
      rcases illegalWord_cases v k with ⟨hp, h⟩ | ⟨hp, h⟩ <;> rw [h]
      · exact .illegalIgnored v e k hd hp
      · exact .illegal v e k hd hp
  · rcases writeLen_cases v k with ⟨hp, h⟩ | ⟨hp, h⟩ <;> rw [h]
    · exact .lenWritten v k hp
    · exact .lenRefused v k hp
  · rcases writeType_cases v k with ⟨hp, h⟩ | ⟨hp, h⟩ <;> rw [h]
    · exact .typeWritten v k hp
    · exact .typeRefused v k hp
  · exact .none _ k

/-- The move behind an event. -/
theorem eventMove_of_perform {e : Event} {s t : State} (h : perform e s = .next t) :
    EventMove e s.block t.block := by
  rcases perform_cases h with ⟨r, rfl, rfl⟩ | ⟨r, v, rfl, rfl⟩ | ⟨rfl, rfl⟩
  · exact .none _ _
  · exact eventMove_blockWritten r v s.block
  · exact .hardReset _

/-- The move behind a step that takes the event `e`. -/
theorem eventMove_of_step {e : Event} {rest : List Event} {s t : State} (hp : s.pending = e :: rest)
    (h : step s = .next t) : EventMove e s.block t.block := by
  rw [step_cons hp] at h
  have := eventMove_of_perform h
  exact this

/-- A property of the block that the moves of every event keep is kept by every step. -/
theorem step_keeps {P : Block → Prop} (keep : ∀ e k k', EventMove e k k' → P k → P k') {s t : State}
    (hs : P s.block) (h : step s = .next t) : P t.block := by
  cases hp : s.pending with
  | nil => rw [step_nil hp] at h; cases h; exact hs
  | cons e rest => exact keep e _ _ (eventMove_of_step hp h) hs

end Sys2Proof.Machine
end

