-- ==== Sys2Proof/Laws/Operands.lean ====
section
/-! SUPPORT. The bits of bytes of words, STATUS and the type-code flags bit by bit, and what a write of one type byte
leaves. -/

namespace Sys2Proof.Machine

/-- A byte index is one of four. -/
theorem byteIndex_cases (i : BitVec 2) : i = 0#2 ∨ i = 1#2 ∨ i = 2#2 ∨ i = 3#2 := by
  revert i; decide

/-- Bit `j` of byte `i` of a word (R7). -/
theorem byteOf_getLsbD (w : Word) (i : BitVec 2) (j : Nat) :
    (byteOf w i).getLsbD j = (decide (j < 8) && w.getLsbD (24 - 8 * i.toNat + j)) := by
  simp [byteOf, BitVec.getLsbD_extractLsb']

/-- Writing one byte of a word changes that byte and keeps the other three (R99). -/
theorem byteOf_setByte (w : Word) (i j : BitVec 2) (b : Byte) :
    byteOf (setByte w i b) j = if j = i then b else byteOf w j := by
  have mask : ∀ m, (0x000000FF#32).getLsbD m = decide (m < 8) := by
    intro m
    by_cases h : m < 32
    · have : ∀ m < 32, (0x000000FF#32).getLsbD m = decide (m < 8) := by decide
      exact this m h
    · rw [BitVec.getLsbD_of_ge _ _ (by omega)]
      simp; omega
  apply BitVec.eq_of_getLsbD_eq
  intro n hn
  rcases byteIndex_cases i with rfl | rfl | rfl | rfl <;>
    rcases byteIndex_cases j with rfl | rfl | rfl | rfl <;>
    simp only [byteOf, setByte, zext32, BitVec.getLsbD_extractLsb', BitVec.getLsbD_or,
      BitVec.getLsbD_and, BitVec.getLsbD_not, BitVec.getLsbD_shiftLeft, BitVec.getLsbD_setWidth,
      mask] <;>
    interval_cases n <;> simp

/-- A word is determined by its four bytes. -/
theorem word_eq_of_bytes {v w : Word} (h : ∀ i : BitVec 2, byteOf v i = byteOf w i) : v = w := by
  apply BitVec.eq_of_getLsbD_eq
  intro n hn
  have bit (i : BitVec 2) := congrArg (·.getLsbD (n - (24 - 8 * i.toNat))) (h i)
  simp only [byteOf_getLsbD] at bit
  by_cases h3 : n < 8
  · simpa [h3] using bit 3#2
  · by_cases h2 : n < 16
    · simpa [show n - 8 < 8 by omega, show 8 + (n - 8) = n by omega] using bit 2#2
    · by_cases h1 : n < 24
      · simpa [show n - 16 < 8 by omega, show 16 + (n - 16) = n by omega] using bit 1#2
      · simpa [show n - 24 < 8 by omega, show 24 + (n - 24) = n by omega] using bit 0#2

/-- `bit5` reads bit 5 (R59). -/
theorem bit5_eq (b : Byte) : bit5 b = b.getLsbD 5 := by revert b; decide +kernel

/-- `is_alpha` in numbers (R58). -/
theorem isAlpha_iff (b : Byte) : isAlpha b = true ↔
    (0x41 ≤ b.toNat ∧ b.toNat ≤ 0x5A) ∨ (0x61 ≤ b.toNat ∧ b.toNat ≤ 0x7A) := by
  revert b; decide +kernel

/-- Bit `i` of FLAGS is the `i`-th of the ten outputs of the decoder (R69), and the rest are 0. -/
theorem flags_getLsbD (t : Word) (i : Nat) : (flags t).getLsbD i =
    ([critical t, isPublic t, rsvdValid t, safeCopy t, alpha t 0, alpha t 1, alpha t 2, alpha t 3,
      validText t, validRaw t].getD i false) := by
  have bits : ∀ a b c d e f g h x y : Bool, ∀ i < 32,
      ((BitVec.ofBool y ++ BitVec.ofBool x ++ BitVec.ofBool h ++ BitVec.ofBool g ++ BitVec.ofBool f
        ++ BitVec.ofBool e ++ BitVec.ofBool d ++ BitVec.ofBool c ++ BitVec.ofBool b
        ++ BitVec.ofBool a).setWidth 32 : Word).getLsbD i
      = [a, b, c, d, e, f, g, h, x, y].getD i false := by decide +kernel
  by_cases hi : i < 32
  · exact bits _ _ _ _ _ _ _ _ _ _ i hi
  · rw [BitVec.getLsbD_of_ge _ _ (by omega)]
    exact (List.getD_eq_default _ _ (by simp; omega)).symm

/-- Bit `i` of STATUS, field by field (R18). -/
theorem statusWord_getLsbD (k : Block) (i : Nat) : (statusWord k).getLsbD i =
    if i < 3 then (phaseCode k.phase).getLsbD i
    else if i < 5 then (modeCode k.mode).getLsbD (i - 3)
    else if i < 8 then false
    else if i < 12 then (errCode k.err).getLsbD (i - 8)
    else if i < 14 then k.fidx.getLsbD (i - 12)
    else if i < 16 then false
    else if i < 17 then k.btr
    else if i < 20 then false
    else (phaseCode k.ephase).getLsbD (i - 20) := by
  have hw : ∀ x : BitVec 23, (x.setWidth 32).getLsbD i = x.getLsbD i := by
    intro x
    simp only [BitVec.getLsbD_setWidth]
    by_cases h : i < 32
    · simp [h]
    · rw [BitVec.getLsbD_of_ge x i (by omega)]; simp
  unfold statusWord
  rw [hw]
  simp only [BitVec.getLsbD_append, BitVec.getLsbD_zero, BitVec.getLsbD_ofBool]
  by_cases h23 : i < 23
  · interval_cases i <;> simp
  · simp only [show ¬ i < 3 by omega, show ¬ i - 3 < 2 by omega, show ¬ i - 3 - 2 < 3 by omega,
      show ¬ i - 3 - 2 - 3 < 4 by omega, show ¬ i - 3 - 2 - 3 - 4 < 2 by omega,
      show ¬ i - 3 - 2 - 3 - 4 - 2 < 2 by omega, show ¬ i - 3 - 2 - 3 - 4 - 2 - 2 < 1 by omega,
      show ¬ i - 3 - 2 - 3 - 4 - 2 - 2 - 1 < 3 by omega, show ¬ i < 5 by omega,
      show ¬ i < 8 by omega, show ¬ i < 12 by omega, show ¬ i < 14 by omega, show ¬ i < 16 by omega,
      show ¬ i < 17 by omega, show ¬ i < 20 by omega, if_false]
    congr 1

end Sys2Proof.Machine
end

