-- ==== Sys2Proof/Laws/PerInstr.lean ====
section
/-! SUPPORT. The family `InRow`: what holds of every instruction as syntax, one lemma for each constructor. -/

namespace Sys2Proof.Laws.InRow

open Sys2Proof

/-- The operands are in their ranges (R55), and the word lies in the instruction's own row of the opcode
map (R50). -/
def Statement (i : Instr) : Prop :=
  i.wellFormed = true ∧ rowMatches (encode i) (opcodeRow i) = true

theorem nop : Statement .nop := ⟨Instr.wellFormed_eq_true _, encode_in_row _⟩

theorem initParse : Statement .initParse := ⟨Instr.wellFormed_eq_true _, encode_in_row _⟩

theorem initEncode : Statement .initEncode := ⟨Instr.wellFormed_eq_true _, encode_in_row _⟩

theorem push (b : Byte) : Statement (.push b) := ⟨Instr.wellFormed_eq_true _, encode_in_row _⟩

theorem endInput : Statement .endInput := ⟨Instr.wellFormed_eq_true _, encode_in_row _⟩

theorem emit : Statement .emit := ⟨Instr.wellFormed_eq_true _, encode_in_row _⟩

theorem btest (sel : BitVec 2) (idx : BitVec 4) : Statement (.btest sel idx) :=
  ⟨Instr.wellFormed_eq_true _, encode_in_row _⟩

theorem sreset : Statement .sreset := ⟨Instr.wellFormed_eq_true _, encode_in_row _⟩

end Sys2Proof.Laws.InRow
end

