-- ==== Sys2Proof/Laws/Run.lean ====
section
/-! SUPPORT. Running a host program event by event (70_reset_and_hazards.md R151): the host's pending
accesses only say what comes next, so a run is cut and joined where one likes. -/

namespace Sys2Proof.Machine

/-- An event's effect does not depend on the accesses behind it (R43). -/
theorem perform_pending {e : Event} {s t : State} (q : List Event) (h : perform e s = .next t) :
    perform e { s with pending := q } = .next { t with pending := q } := by
  rcases perform_cases h with ⟨r, rfl, rfl⟩ | ⟨r, v, rfl, rfl⟩ | ⟨rfl, rfl⟩
  · rw [perform_readOf]; rfl
  · rw [perform_writeOf, regWrite_eq]; rfl
  · rfl

/-- A step that takes the event `e` leaves the rest pending. -/
theorem step_pending {e : Event} {rest : List Event} {s t : State} (hp : s.pending = e :: rest)
    (h : step s = .next t) : t.pending = rest := by
  rw [step_cons hp] at h
  rcases perform_cases h with ⟨r, -, rfl⟩ | ⟨r, v, -, rfl⟩ | ⟨-, rfl⟩ <;> rfl

theorem runProgram_nil (s : State) : runProgram [] s = .next { s with pending := [] } := rfl

/-- What is pending before a run is replaced by the program. -/
theorem runProgram_pending (p q : List Event) (s : State) :
    runProgram p { s with pending := q } = runProgram p s := rfl

/-- A run whose first event answers `t` goes on from `t`. -/
theorem runProgram_cons {e : Event} {p : List Event} {s t : State} (h : perform e s = .next t) :
    runProgram (e :: p) s = runProgram p t := by
  have hs : step { s with pending := e :: p } = .next { t with pending := p } :=
    perform_pending (s := s) p h
  simp only [runProgram, List.length_cons, Host.Core.run]
  rw [show Sys2Proof.core.step = step from rfl, hs]

/-- A run that answers a next state took its first event. -/
theorem runProgram_cons_next {e : Event} {p : List Event} {s t : State}
    (h : runProgram (e :: p) s = .next t) : ∃ u, perform e s = .next u ∧ runProgram p u = .next t := by
  cases he : perform e s with
  | next u => exact ⟨u, rfl, by rwa [runProgram_cons he] at h⟩
  | fault r => cases r
  | refused r =>
    exfalso
    cases he' : perform e { s with pending := p } with
    | next u => rw [perform_pending s.pending he'] at he; cases he
    | fault r => cases r
    | refused r' =>
      have hs : step { s with pending := e :: p } = .refused r' := he'
      simp only [runProgram, List.length_cons, Host.Core.run] at h
      rw [show Sys2Proof.core.step = step from rfl, hs] at h
      cases h

/-- Runs join: after `p` from `s`, the run of `p ++ q` is the run of `q`. -/
theorem runProgram_append {p q : List Event} {s t : State} (h : runProgram p s = .next t) :
    runProgram (p ++ q) s = runProgram q t := by
  induction p generalizing s with
  | nil => cases h; rfl
  | cons e p ih =>
    obtain ⟨u, he, hu⟩ := runProgram_cons_next h
    rw [List.cons_append, runProgram_cons he]
    exact ih hu

/-- A read adds one value to the observation, in the middle of a run. -/
theorem runProgram_readOf (r : Reg) (p : List Event) (s : State) :
    runProgram (readOf r :: p) s = runProgram p (s.observe (regRead s.block r)) :=
  runProgram_cons (perform_readOf r s)

/-- A write changes the block, in the middle of a run. -/
theorem runProgram_writeOf (r : Reg) (v : Word) (p : List Event) (s : State) :
    runProgram (writeOf r v :: p) s = runProgram p (s.withBlock (blockWritten r v s.block)) :=
  runProgram_cons ((perform_writeOf r v s).trans (regWrite_eq r v s))

/-- A relation between blocks that holds of a block and itself, and that the moves of every event of `p`
extend, holds between the first and the last block of a run of `p`. -/
theorem runProgram_keeps {R : Block → Block → Prop} {p : List Event} {s t : State}
    (refl : ∀ k, R k k)
    (extend : ∀ e ∈ p, ∀ k₀ k k', EventMove e k k' → R k₀ k → R k₀ k')
    (h : runProgram p s = .next t) : R s.block t.block := by
  have go : ∀ (q : List Event) (u : State), (∀ e ∈ q, e ∈ p) → R s.block u.block →
      runProgram q u = .next t → R s.block t.block := by
    intro q
    induction q with
    | nil => intro u _ hr hu; cases hu; exact hr
    | cons e q ih =>
      intro u hq hr hu
      obtain ⟨v, he, hv⟩ := runProgram_cons_next hu
      exact ih v (fun e' he' => hq e' (List.mem_cons_of_mem _ he'))
        (extend e (hq e (List.mem_cons_self ..)) _ _ _ (eventMove_of_perform he) hr) hv
  exact go p s (fun _ he => he) (refl _) h

end Sys2Proof.Machine
end

