-- ==== Sys2Proof/Tests/Slice0.lean ====
section
/-! SUPPORT. The model's own tests.  Expected values come from 95_test_vectors.md, by the section or row
named in each docstring, or from the encodings of 30_encoding.md written out.  The witnesses at the end
show, for each statement with hypotheses, a concrete state and operands that meet them. -/

namespace Sys2Proof.Tests

open Sys2Proof Sys2Proof.Machine

/-! ### Helpers -/

/-- A reset block moved to a mode, a phase and a byte index. -/
def blockAt (m : Mode) (p : Phase) (f : BitVec 2) : Block :=
  { Block.reset with mode := m, phase := p, fidx := f }

/-- A machine whose block is `k` and whose host asks for `pending` next. -/
def machine (k : Block) (pending : List Event := []) : State :=
  { block := k, pending := pending, reads := [] }

/-- The state a step answers, if it answers one. -/
def stepNext (s : State) : Option State :=
  match step s with
  | .next t => some t
  | .fault _ => none
  | .refused _ => none

/-- The block after the host writes the word `w` to CMD. -/
def afterWord (w : Word) (k : Block) : Option Block :=
  (stepNext (machine k [writeOf .cmd w])).map (·.block)

/-- Some registers of a block, read together. -/
def view (rs : List Reg) (k : Block) : List Word := rs.map (regRead k)

/-- The CRC register after the bytes `s`. -/
def crcOver (s : List Byte) : Word := s.foldl crcUpdate crcInit

/-- A block that P3 of section 10 leaves: ERROR after a checksum mismatch. -/
def mismatched : Block :=
  { mode := .parse, phase := .error, fidx := 0, len := 0x2A, type := 0x52755374, cnt := 0x2A
    crc := crcFinal 0xABD1D84E, wcrc := 0xABD1D84F, err := .checksumMismatch, ephase := .crc
    erra := 0xABD1D84F, errb := 0xABD1D84E, out := 0, outv := false, btr := false }

/-- The type code of scenario A in TYPE, from reset (section 5). -/
def typed : Block := { Block.reset with type := 0x52755374 }

/-! ### Well-formedness -/

/-- R38: each part of the contract refuses an access of its own. -/
theorem test_wellFormed_access :
    (Access.wellFormed ⟨0x3C, 32, .read⟩ = true) ∧ (Access.wellFormed ⟨0x08, 16, .read⟩ = false) ∧
    (Access.wellFormed ⟨-4, 32, .read⟩ = false) ∧ (Access.wellFormed ⟨64, 32, .read⟩ = false) ∧
    (Access.wellFormed ⟨2, 32, .read⟩ = false) := by decide

/-- R139: an access that a reset overlaps is outside the contract; a reset alone is inside. -/
theorem test_wellFormed_event :
    Event.wellFormed (.accessDuringReset ⟨0, 32, .read⟩) = false ∧
    Event.wellFormed (.access ⟨2, 32, .write 0⟩) = false ∧ Event.wellFormed .hardReset = true := by
  decide

/-- R55: the ends of the operand ranges. -/
theorem test_wellFormed_instr :
    (Instr.push 0xFF).wellFormed = true ∧ (Instr.btest 3 15).wellFormed = true := by decide

/-! ### Decoding, from the words of R57 -/

theorem test_decode_nop : decode 0x00000000 = .ok .nop := by rfl
theorem test_decode_initParse : decode 0x01000000 = .ok .initParse := by rfl
theorem test_decode_initEncode : decode 0x02000000 = .ok .initEncode := by rfl
theorem test_decode_push : decode 0b00000011_0000000000000000_10100101 = .ok (.push 0xA5) := by rfl
theorem test_decode_end : decode 0x04000000 = .ok .endInput := by rfl
theorem test_decode_emit : decode 0x05000000 = .ok .emit := by rfl
/-- OPC 0x06, RSV 0, idx 0b1001, ARG[3:2] 0b00, sel 0b01. -/
theorem test_decode_btest : decode 0b00000110_0000000000000000_1001_00_01 = .ok (.btest 1 9) := by rfl
theorem test_decode_sreset : decode 0x07000000 = .ok .sreset := by rfl

/-- Section 5 and rows 8.5 to 8.10: illegal words, and which case of R51 each is. -/
theorem test_decode_illegal :
    decode 0x08000000 = .error .opcode ∧ decode 0xFF000000 = .error .opcode ∧
    decode 0x00000001 = .error .argument ∧ decode 0x01000100 = .error .reserved ∧
    decode 0x03010041 = .error .reserved ∧ decode 0x04000001 = .error .argument ∧
    decode 0x05000080 = .error .argument ∧ decode 0x07000001 = .error .argument ∧
    decode 0x06000004 = .error .argument ∧ decode 0x06000008 = .error .argument := by
  refine ⟨rfl, rfl, rfl, rfl, rfl, rfl, rfl, rfl, rfl, rfl⟩

/-- The same words as the opcode table numbers them. -/
theorem test_decodeTableWord :
    decodeTableWord 32 0x03000052 = some (.push 0x52) ∧
    decodeTableWord 32 0x06000052 = some (.btest 2 5) ∧ decodeTableWord 32 0x08000000 = none := by
  decide

/-- R50: the eight rows in order. -/
theorem test_opcodeTable :
    opcodeTable.map (·.mnemonic)
      = ["NOP", "INIT_PARSE", "INIT_ENCODE", "PUSH", "END", "EMIT", "BTEST", "SRESET"] := by decide

/-! ### One step of each command -/

/-- Rows 7.1 and 8.12: NOP leaves every register as it was. -/
theorem test_nop : afterWord 0x00000000 mismatched = some mismatched := by decide +kernel

/-- Row 7.3: INIT_PARSE leaves ERROR. -/
theorem test_initParse :
    (afterWord 0x01000000 mismatched).map
      (view [.status, .len, .type, .crc, .wcrc, .out, .cnt, .erra, .errb, .flags])
    = some [0x00000009, 0, 0, 0, 0, 0, 0, 0, 0, 0x007] := by decide +kernel

/-- Row 7.4: INIT_ENCODE keeps LEN and TYPE. -/
theorem test_initEncode :
    (afterWord 0x02000000 { Block.reset with type := 0x49454E44, len := 0 }).map
      (view [.status, .len, .type]) = some [0x00000011, 0, 0x49454E44] := by decide +kernel

/-- Section 1.5: the eighth PUSH of scenario C. -/
theorem test_push_invalid_type :
    (afterWord 0x03000074 { blockAt .parse .type 3 with
        type := 0x52753100, crc := crcOver [0x52, 0x75, 0x31] }).map
      (view [.status, .erra, .errb, .cnt, .crc])
    = some [0x0020020E, 0x52753174, 0, 0, 0x834F0019] := by decide +kernel

/-- Row 7.13: a payload byte in ENCODE. -/
theorem test_push_encode :
    (afterWord 0x03000041 { blockAt .encode .payload 0 with
        type := 0x49444154, len := 1, crc := crcOver [0x49, 0x44, 0x41, 0x54] }).map
      (view [.out, .cnt, .crc, .status]) = some [0x141, 1, 0x29E30CEE, 0x00000014] := by
  decide +kernel

/-- Row 7.19: END inside the checksum keeps FIDX and WCRC. -/
theorem test_end_truncated :
    (afterWord 0x04000000 { blockAt .parse .crc 2 with wcrc := 0x0000AE42 }).map
      (view [.status, .wcrc, .erra]) = some [0x0040210E, 0x0000AE42, 0] := by decide +kernel

/-- Row 7.21: END in ENCODE. -/
theorem test_end_encode :
    (afterWord 0x04000000 { blockAt .encode .len 0 with len := 1 }).map (view [.status, .erra])
    = some [0x00100516, 0x04000000] := by decide +kernel

/-- P2, step 18: the fourth type byte, and the empty payload skipped. -/
theorem test_emit_type :
    (afterWord 0x05000000 { blockAt .encode .type 3 with type := 0x49454E44 }).map
      (view [.out, .status]) = some [0x144, 0x00000014] := by decide +kernel

/-- P2, step 26: the last checksum byte. -/
theorem test_emit_crc :
    (afterWord 0x05000000 { blockAt .encode .crc 3 with
        type := 0x49454E44, crc := crcOver [0x49, 0x45, 0x4E, 0x44] }).map
      (view [.out, .status, .crc]) = some [0x182, 0x00000015, 0xAE426082] := by decide +kernel

/-- Section 5, its nine legal rows: the word and the STATUS after it. -/
theorem test_btest_table :
    ([0x06000050, 0x06000051, 0x06000052, 0x06000053, 0x06000000, 0x06000010, 0x06000060,
        0x06000091, 0x060000F3].map fun w => (afterWord w typed).map (regRead · .status))
    = [some 0, some 0x10000, some 0, some 0x10000, some 0, some 0x10000, some 0x10000, some 0,
        some 0] := by decide +kernel

/-- P7, step 8: BTEST runs in ERROR. -/
theorem test_btest_in_error :
    (afterWord 0x06000051 { typed with phase := .error, err := .protocolError }).map
      (regRead · .status) = some 0x00010506 := by decide +kernel

/-- Row 7.30. -/
theorem test_sreset : afterWord 0x07000000 mismatched = some Block.reset := by decide +kernel

/-- Rows 7.5 and 9.7: the first command after reset, as the host places it. -/
theorem test_withFetchWord :
    (stepNext (State.reset.withFetchWord 32 0x03000000)).map
      (fun t => (view [.status, .erra, .errb] t.block, t.pending))
    = some ([0x00000506, 0x03000000, 0], []) := by decide +kernel

/-! ### Accesses -/

/-- Row 9.1: every offset read from reset. -/
theorem test_reset_reads :
    ((List.range 16).map fun n =>
      (stepNext (machine Block.reset [.access ⟨(4 * n : Nat), 32, .read⟩])).map (·.reads))
    = (List.replicate 10 (some [0])) ++ [some [0x00000007]] ++ List.replicate 5 (some [0]) := by
  decide +kernel

/-- Row 9.2: writes of CRC, STATUS and offset 0x2C change nothing. -/
theorem test_ignored_writes :
    ([((0x10 : Int), (0x1234 : Word)), (0x04, 0xFFFFFFFF), (0x2C, 5)].map fun p =>
      (stepNext (machine Block.reset [.access ⟨p.1, 32, .write p.2⟩])).map (·.block))
    = [some Block.reset, some Block.reset, some Block.reset] := by decide +kernel

/-- Row 8.4: a LEN write in PARSE phase LEN. -/
theorem test_len_write_refused :
    (stepNext (machine (blockAt .parse .len 2) [writeOf .len 7])).map
      (fun t => view [.status, .erra, .errb, .len] t.block)
    = some [0x0010250E, 0x00000007, 0x00000008, 0] := by decide +kernel

/-- Row 9.7: a 16-bit access, and a 32-bit access at offset 2. -/
theorem test_refused_accesses :
    step (machine Block.reset [.access ⟨0x00, 16, .read⟩]) = .refused .accessWidth ∧
    step (machine Block.reset [.access ⟨0x02, 32, .read⟩]) = .refused .accessMisaligned ∧
    step (machine Block.reset [.access ⟨0x40, 32, .read⟩]) = .refused .accessOutsideWindow :=
  ⟨rfl, rfl, rfl⟩

/-- Rows 8.5 and 8.11: an illegal word, and the same word in ERROR. -/
theorem test_illegal_word :
    (afterWord 0x08000000 Block.reset).map (view [.status, .erra, .errb])
      = some [0x00000606, 0x08000000, 0] ∧
    afterWord 0x08000000 mismatched = some mismatched := by decide +kernel

/-! ### The engines -/

/-- Section 2: the standard check value, "IEND", and one table entry in both forms. -/
theorem test_crc :
    crc32 [0x31, 0x32, 0x33, 0x34, 0x35, 0x36, 0x37, 0x38, 0x39] = 0xCBF43926 ∧
    crc32 [0x49, 0x45, 0x4E, 0x44] = 0xAE426082 ∧ crc32 [] = 0 ∧ crcTable 0x55 = 0x1B01A57B ∧
    crcUpdateByTable 0x12345678 0xAA = crcUpdate 0x12345678 0xAA := by decide +kernel

/-- Section 1.1: scenario A's checksum, over its 46 bytes. -/
theorem test_crc_scenario_a :
    crc32 ([0x52, 0x75, 0x53, 0x74] ++
      [0x54, 0x68, 0x69, 0x73, 0x20, 0x69, 0x73, 0x20, 0x77, 0x68, 0x65, 0x72, 0x65, 0x20, 0x79,
       0x6F, 0x75, 0x72, 0x20, 0x73, 0x65, 0x63, 0x72, 0x65, 0x74] ++
      [0x20, 0x6D, 0x65, 0x73, 0x73, 0x61, 0x67, 0x65, 0x20, 0x77, 0x69, 0x6C, 0x6C, 0x20, 0x62,
       0x65, 0x21]) = 0xABD1D84E := by decide +kernel

/-- Section 4: FLAGS of its seventeen type codes. -/
theorem test_flags_table :
    ([0x52755374, 0x52757374, 0x52753174, 0x49484452, 0x49454E44, 0x504C5445, 0x74455874,
      0x624B4744, 0x72755354, 0x52557374, 0x415A617A, 0x405B607B, 0x5275D374, 0x31323334,
      0x00000000, 0xFFFFFFFF, 0x49450000].map flags)
    = [0x3FD, 0x1F9, 0x0B9, 0x3F7, 0x3F7, 0x3F7, 0x3FE, 0x3F6, 0x3F4, 0x1FB, 0x1FB, 0x00B, 0x0BD,
       0x008, 0x007, 0x008, 0x037] := by decide +kernel

/-- Section 6: the packer. -/
theorem test_packer :
    be32Pack 0x12345678 = [0x12, 0x34, 0x56, 0x78] ∧ be32Unpack 0 0 0 5 = 0x00000005 ∧
    be32ShiftIn 0x12345678 0x9A = 0x3456789A ∧
    [0x00, 0x00, 0x00, 0x2A].foldl be32ShiftIn 0xDEADBEEF = 0x0000002A := by decide

/-- Sections 1.4 and 3: the reference parse rejects "Rust", and finds a short input. -/
theorem test_parseRef :
    parseRef [0, 0, 0, 0, 0x52, 0x75, 0x73, 0x74] = .err .invalidTypeCode 0x52757374 0 ∧
    parseRef [0, 0, 0, 5, 0x49, 0x44, 0x41, 0x54, 0x61, 0x62, 0x63] = .err .truncatedInput 0 0 ∧
    parseRef [0, 0, 0, 0, 0x49, 0x45, 0x4E, 0x44, 0xAE, 0x42, 0x60, 0x82] = .ok 0x49454E44 [] := by
  decide +kernel

/-- P2: the wire image of the empty IEND chunk. -/
theorem test_wire :
    wire 0x49454E44 [] = [0, 0, 0, 0, 0x49, 0x45, 0x4E, 0x44, 0xAE, 0x42, 0x60, 0x82] := by
  decide +kernel

/-! ### Witnesses: reset and the commands -/

/-- The hardware reset, an access during it, and SRESET answering a next state. -/
theorem witness_BothResetsGiveTheResetState :
    (∃ s rest, State.pending s = .hardReset :: rest) ∧
    (∃ s rest a, State.pending s = .accessDuringReset a :: rest) ∧
    ∃ s t, exec .sreset s = .next t :=
  ⟨⟨machine mismatched [.hardReset], [], rfl⟩,
    ⟨machine mismatched [.accessDuringReset ⟨0, 32, .read⟩], [], _, rfl⟩,
    ⟨machine mismatched, _, rfl⟩⟩

/-- OPC 0 with the lowest bit set, OPC 0 with the highest RSV bit set, and a write of 0. -/
theorem witness_NopChangesNothing :
    (∃ w : Word, w.extractLsb' 24 8 = 0x00#8 ∧ w ≠ 0x00000000#32 ∧ w = 0x00000001#32) ∧
    (∃ w : Word, w.extractLsb' 24 8 = 0x00#8 ∧ w ≠ 0x00000000#32 ∧ w = 0x00800000#32) ∧
    ∃ s rest, State.pending s = writeOf .cmd 0x00000000#32 :: rest :=
  ⟨⟨_, by decide, by decide, rfl⟩, ⟨_, by decide, by decide, rfl⟩,
    ⟨machine mismatched [writeOf .cmd 0], [], rfl⟩⟩

theorem witness_InitParseStartsAParse :
    ∃ s t, exec .initParse s = .next t ∧ s.block.btr = false := ⟨machine mismatched, _, rfl, rfl⟩

theorem witness_InitEncodeKeepsTheChunk :
    ∃ s t, exec .initEncode s = .next t ∧ s.block.btr = false := ⟨machine mismatched, _, rfl, rfl⟩

/-- Both selects that the last clause tells apart, at a next state. -/
theorem witness_BtestReadsOneBitOfType :
    (∃ s t, exec (.btest 3 5) s = .next t) ∧ ∃ s t, exec (.btest 0 5) s = .next t :=
  ⟨⟨machine typed, _, rfl⟩, ⟨machine typed, _, rfl⟩⟩

theorem witness_PushWithNoOperationIsRefused :
    ∃ (_b : Byte) (s : State), s.block.mode = .none ∧ s.block.phase = .idle :=
  ⟨0xFF, State.reset, rfl, rfl⟩

theorem witness_PushShiftsALengthByteIn :
    ∃ (_b : Byte) (s : State), s.block.mode = .parse ∧ s.block.phase = .len ∧ s.block.fidx = 3 :=
  ⟨0x2A, machine (blockAt .parse .len 3), rfl, rfl, rfl⟩

/-- The five outcomes of a type byte; the first at the last index it covers. -/
theorem witness_PushTakesATypeByte :
    let meets (b : Byte) (k : Block) := k.mode = .parse ∧ k.phase = .type ∧
      byteOf (setByte k.type k.fidx b) k.fidx = b
    (∃ b k, meets b k ∧ k.fidx = 2 ∧ k.fidx ≠ 3) ∧
    (∃ b k, meets b k ∧ k.fidx = 3 ∧ validRaw (setByte k.type k.fidx b) = false) ∧
    (∃ b k, meets b k ∧ k.fidx = 3 ∧ validRaw (setByte k.type k.fidx b) = true ∧ k.len ≠ 0) ∧
    (∃ b k, meets b k ∧ k.fidx = 3 ∧ validRaw (setByte k.type k.fidx b) = true ∧ k.len = 0 ∧
      k.cnt = 0) ∧
    ∃ b k, meets b k ∧ k.fidx = 3 ∧ validRaw (setByte k.type k.fidx b) = true ∧ k.len = 0 ∧
      k.cnt ≠ 0 :=
  ⟨⟨0x53, blockAt .parse .type 2, by decide⟩,
    ⟨0x31, { blockAt .parse .type 3 with type := 0x52755300 }, by decide⟩,
    ⟨0x74, { blockAt .parse .type 3 with type := 0x52755300, len := 1 }, by decide⟩,
    ⟨0x74, { blockAt .parse .type 3 with type := 0x52755300 }, by decide⟩,
    ⟨0x74, { blockAt .parse .type 3 with type := 0x52755300, cnt := 1 }, by decide⟩⟩

/-- The last payload byte but one, and the last. -/
theorem witness_PushTakesAPayloadByte :
    let meets (k : Block) := k.mode = .parse ∧ k.phase = .payload
    (∃ k, meets k ∧ k.cnt + 1#32 ≠ k.len) ∧ ∃ k, meets k ∧ k.cnt + 1#32 = k.len :=
  ⟨⟨{ blockAt .parse .payload 0 with len := 2 }, by decide⟩,
    ⟨{ blockAt .parse .payload 0 with len := 2, cnt := 1 }, by decide⟩⟩

/-- A checksum byte at the last index before the compare, a match and a mismatch. -/
theorem witness_PushTakesAChecksumByte :
    let meets (k : Block) := k.mode = .parse ∧ k.phase = .crc
    let taken (b : Byte) (k : Block) : Word := (k.wcrc <<< 8) ||| b.setWidth 32
    (∃ k, meets k ∧ k.fidx = 2 ∧ k.fidx ≠ 3) ∧
    (∃ b k, meets k ∧ k.fidx = 3 ∧ taken b k = k.crc ^^^ 0xFFFFFFFF#32) ∧
    ∃ b k, meets k ∧ k.fidx = 3 ∧ taken b k ≠ k.crc ^^^ 0xFFFFFFFF#32 :=
  ⟨⟨blockAt .parse .crc 2, by decide⟩, ⟨0x00, blockAt .parse .crc 3, by decide⟩,
    ⟨0x01, blockAt .parse .crc 3, by decide⟩⟩

theorem witness_PushAfterAParsedChunkIsIgnored :
    ∃ (_b : Byte) (s : State), s.block.mode = .parse ∧ s.block.phase = .done :=
  ⟨0x99, machine (blockAt .parse .done 0), rfl, rfl⟩

theorem witness_PushEchoesAPayloadByte :
    ∃ (_b : Byte) (s : State), s.block.mode = .encode ∧ s.block.phase = .payload ∧
      s.block.cnt + 1#32 = s.block.len :=
  ⟨0x41, machine { blockAt .encode .payload 0 with len := 1 }, rfl, rfl, by decide⟩

theorem witness_PushOutsideThePayloadIsRefused :
    ∀ p ∈ [Phase.len, .type, .crc, .done], ∃ s : State, s.block.mode = .encode ∧ s.block.phase = p ∧
      s.block.phase ∈ [Phase.len, .type, .crc, .done] :=
  fun p hp => ⟨machine (blockAt .encode p 0), rfl, rfl, hp⟩

/-- Each of the three clauses, and no block under two of them. -/
theorem witness_EndReportsAShortInput :
    (∀ p ∈ [Phase.len, .type, .payload, .crc], ∃ k : Block, k.mode = .parse ∧ k.phase = p) ∧
    (∃ k : Block, k.mode = .parse ∧ k.phase = .done) ∧
    (∃ k : Block, k.mode = .encode ∧ k.phase = .done) ∧
    (∃ k : Block, k.mode = .none ∧ k.phase ≠ .error) ∧
    ∃ k : Block, k.mode = .encode ∧ k.phase ≠ .done ∧ k.phase ≠ .error :=
  ⟨fun p _ => ⟨blockAt .parse p 0, rfl, rfl⟩, ⟨blockAt .parse .done 0, rfl, rfl⟩,
    ⟨blockAt .encode .done 0, rfl, rfl⟩, ⟨Block.reset, by decide⟩,
    ⟨blockAt .encode .crc 3, by decide⟩⟩

theorem witness_EmitOutsideEncodeIsRefused :
    (∃ k : Block, k.mode = .none ∧ k.phase ≠ .error) ∧
    ∃ k : Block, k.mode = .parse ∧ k.phase ≠ .error :=
  ⟨⟨Block.reset, by decide⟩, ⟨blockAt .parse .done 0, by decide⟩⟩

theorem witness_EmitGivesALengthByte :
    ∃ s : State, s.block.mode = .encode ∧ s.block.phase = .len ∧ s.block.fidx = 3 :=
  ⟨machine (blockAt .encode .len 3), rfl, rfl, rfl⟩

/-- The last type byte, with a payload to follow and with none. -/
theorem witness_EmitGivesATypeByte :
    (∃ s : State, s.block.mode = .encode ∧ s.block.phase = .type ∧ s.block.fidx = 3 ∧
      s.block.len = 0) ∧
    ∃ s : State, s.block.mode = .encode ∧ s.block.phase = .type ∧ s.block.fidx = 3 ∧
      s.block.len ≠ 0 :=
  ⟨⟨machine (blockAt .encode .type 3), rfl, rfl, rfl, rfl⟩,
    ⟨machine { blockAt .encode .type 3 with len := 1 }, rfl, rfl, rfl, by decide⟩⟩

theorem witness_EmitGivesAChecksumByte :
    ∃ s : State, s.block.mode = .encode ∧ s.block.phase = .crc ∧ s.block.fidx = 3 :=
  ⟨machine (blockAt .encode .crc 3), rfl, rfl, rfl⟩

theorem witness_EmitWithNoByteDueClearsOut :
    (∃ s : State, s.block.mode = .encode ∧ s.block.phase = .payload) ∧
    ∃ s : State, s.block.mode = .encode ∧ s.block.phase = .done :=
  ⟨⟨machine (blockAt .encode .payload 0), rfl, rfl⟩, ⟨machine (blockAt .encode .done 0), rfl, rfl⟩⟩

/-! ### Witnesses: frames -/

/-- A command that changes each element: the premise of each clause. -/
theorem witness_EachElementHasOnlyItsWriters :
    (∃ i s t, exec i s = .next t ∧ t.block.mode ≠ s.block.mode) ∧
    (∃ i s t, exec i s = .next t ∧ t.block.len ≠ s.block.len) ∧
    (∃ i s t, exec i s = .next t ∧ t.block.type ≠ s.block.type) ∧
    (∃ i s t, exec i s = .next t ∧ t.block.cnt ≠ s.block.cnt) ∧
    (∃ i s t, exec i s = .next t ∧ t.block.crc ≠ s.block.crc) ∧
    (∃ i s t, exec i s = .next t ∧ t.block.wcrc ≠ s.block.wcrc) ∧
    (∃ i s t, exec i s = .next t ∧ t.block.fidx ≠ s.block.fidx) ∧
    (∃ i s t, exec i s = .next t ∧ t.block.phase ≠ s.block.phase) ∧
    (∃ i s t, exec i s = .next t ∧ (t.block.err, t.block.ephase, t.block.erra, t.block.errb)
      ≠ (s.block.err, s.block.ephase, s.block.erra, s.block.errb)) ∧
    (∃ i s t, exec i s = .next t ∧ (t.block.out, t.block.outv) ≠ (s.block.out, s.block.outv)) ∧
    ∃ i s t, exec i s = .next t ∧ t.block.btr ≠ s.block.btr :=
  ⟨⟨.initParse, machine Block.reset, _, rfl, by decide⟩,
    ⟨.push 1, machine (blockAt .parse .len 0), _, rfl, by decide⟩,
    ⟨.push 0x52, machine (blockAt .parse .type 0), _, rfl, by decide⟩,
    ⟨.push 0, machine { blockAt .encode .payload 0 with len := 1 }, _, rfl, by decide⟩,
    ⟨.emit, machine (blockAt .encode .type 0), _, rfl, by decide +kernel⟩,
    ⟨.push 1, machine (blockAt .parse .crc 0), _, rfl, by decide⟩,
    ⟨.emit, machine (blockAt .encode .len 0), _, rfl, by decide⟩,
    ⟨.emit, machine (blockAt .encode .crc 3), _, rfl, by decide⟩,
    ⟨.endInput, machine Block.reset, _, rfl, by decide⟩,
    ⟨.push 0, machine { blockAt .encode .payload 0 with len := 1 }, _, rfl, by decide⟩,
    ⟨.btest 1 5, machine typed, _, rfl, by decide⟩⟩

/-- A step that changes `btr`, one that changes `outv`, and one that keeps TYPE. -/
theorem witness_FlagsHaveOnlyTheirWriters :
    (∃ e rest s t, State.pending s = e :: rest ∧ step s = .next t ∧ t.block.btr ≠ s.block.btr) ∧
    (∃ e rest s t, State.pending s = e :: rest ∧ step s = .next t ∧ t.block.outv ≠ s.block.outv) ∧
    ∃ e rest s t, State.pending s = e :: rest ∧ step s = .next t ∧ t.block.type = s.block.type :=
  ⟨⟨_, _, machine typed [commandOf (.btest 1 5)], _, rfl, rfl, by decide⟩,
    ⟨_, _, machine (blockAt .encode .len 0) [commandOf .emit], _, rfl, rfl, by decide⟩,
    ⟨_, _, machine typed [commandOf .nop], _, rfl, rfl, rfl⟩⟩

/-! ### Witnesses: encoding, steps and accesses -/

theorem witness_DecodeAndEncodeAgree : ∃ w i, decode w = .ok i := ⟨0x060000F3, .btest 3 15, rfl⟩

theorem witness_LegalWordsMatchOneRow : ∃ w i, decode w = .ok i := ⟨0x030000FF, .push 0xFF, rfl⟩

/-- An illegal word, in ERROR and outside it. -/
theorem witness_IllegalWordsAreTheThreeCases :
    let meets (s : State) (w : Word) (rest : List Event) :=
      s.pending = writeOf .cmd w :: rest ∧ ∃ e, decode w = .error e
    (∃ s w rest, meets s w rest ∧ s.block.phase = .error) ∧
    ∃ s w rest, meets s w rest ∧ s.block.phase ≠ .error :=
  ⟨⟨machine mismatched [writeOf .cmd 0x08000000], 0x08000000, [], ⟨rfl, .opcode, rfl⟩, rfl⟩,
    ⟨machine typed [writeOf .cmd 0x06000004], 0x06000004, [], ⟨rfl, .argument, rfl⟩, by decide⟩⟩

theorem witness_StepRunsTheDecodedCommand :
    ∃ s w rest i, State.pending s = writeOf .cmd w :: rest ∧ decode w = .ok i :=
  ⟨machine mismatched [writeOf .cmd 0x03000052, readOf .out], _, _, .push 0x52, rfl, rfl⟩

/-- Each clause of the decoding order. -/
theorem witness_CommandWordsDecodeInOrder :
    (∃ s w rest, State.pending s = writeOf .cmd w :: rest ∧ decode w = .ok (.btest 3 15)) ∧
    (∃ s w rest, State.pending s = writeOf .cmd w :: rest ∧ s.block.phase = .error ∧
      ∃ e, decode w = .error e) ∧
    (∃ s w rest, State.pending s = writeOf .cmd w :: rest ∧ s.block.phase = .error ∧
      decode w = .ok (.push 0)) ∧
    (∃ s w rest, State.pending s = writeOf .cmd w :: rest ∧ s.block.phase ≠ .error ∧
      ∃ e, decode w = .error e) ∧
    ∃ s w rest, State.pending s = writeOf .cmd w :: rest ∧ s.block.phase ≠ .error ∧
      decode w = .ok .emit :=
  ⟨⟨machine mismatched [writeOf .cmd 0x060000F3], _, _, rfl, rfl⟩,
    ⟨machine mismatched [writeOf .cmd 0x08000000], _, _, rfl, rfl, .opcode, rfl⟩,
    ⟨machine mismatched [writeOf .cmd 0x03000000], _, _, rfl, rfl, rfl⟩,
    ⟨machine typed [writeOf .cmd 0x00000001], _, _, rfl, by decide, .argument, rfl⟩,
    ⟨machine typed [writeOf .cmd 0x05000000], _, _, rfl, by decide, rfl⟩⟩

theorem witness_StepConsumesExactlyTheNextEvent :
    (∃ s : State, s.pending = []) ∧
    (∃ e rest s t, State.pending s = e :: rest ∧ step s = .next t ∧ e = readOf (.reserved 4)) ∧
    ∃ e rest s t, State.pending s = e :: rest ∧ step s = .next t ∧ e = Event.hardReset :=
  ⟨⟨State.reset, rfl⟩, ⟨_, [], machine typed [readOf (.reserved 4)], _, rfl, rfl, rfl⟩,
    ⟨_, [], machine typed [.hardReset], _, rfl, rfl, rfl⟩⟩

/-- Every one of the sixteen offsets can be the pending read. -/
theorem witness_ReadsReturnTheRegister :
    ∀ n < 16, ∃ s rest, State.pending s = .access ⟨(4 * n : Nat), 32, .read⟩ :: rest :=
  fun n _ => ⟨machine typed [.access ⟨(4 * n : Nat), 32, .read⟩], [], rfl⟩

/-- Each write, in a quiescent phase and in another one. -/
theorem witness_LenAndTypeAreWrittenWhenQuiescent :
    ∀ off ∈ [(0x08 : Int), 0x0C],
      (∀ p ∈ [Phase.idle, .done, .error], ∃ s rest v,
        State.pending s = .access ⟨off, 32, .write v⟩ :: rest ∧ s.block.phase = p) ∧
      ∃ s rest v, State.pending s = .access ⟨off, 32, .write v⟩ :: rest ∧
        ¬ (s.block.phase = .idle ∨ s.block.phase = .done ∨ s.block.phase = .error) :=
  fun off _ =>
    ⟨fun p _ => ⟨machine (blockAt .parse p 0) [.access ⟨off, 32, .write 7⟩], [], 7, rfl, rfl⟩,
      ⟨machine (blockAt .parse .len 2) [.access ⟨off, 32, .write 7⟩], [], 7, rfl,
        by show ¬ (Phase.len = .idle ∨ Phase.len = .done ∨ Phase.len = .error); decide⟩⟩

theorem witness_ReadOnlyWritesAreIgnored :
    ∀ off ∈ [(0x04 : Int), 0x10, 0x14, 0x18, 0x1C, 0x20, 0x24, 0x28, 0x2C, 0x30, 0x34, 0x38, 0x3C],
      ∃ s rest v, State.pending s = .access ⟨off, 32, .write v⟩ :: rest :=
  fun off _ => ⟨machine typed [.access ⟨off, 32, .write 5⟩], [], 5, rfl⟩

/-- An admitted access at the end of the window, and one just past it. -/
theorem witness_OnlyAlignedWordAccessesAreAdmitted :
    let ok (a : Access) := a.width = 32 ∧ 0 ≤ a.off ∧ a.off < 64 ∧ a.off % 4 = 0
    (∃ s rest a, State.pending s = .access a :: rest ∧ ok a) ∧
    ∃ s rest a, State.pending s = .access a :: rest ∧ ¬ ok a :=
  ⟨⟨machine typed [.access ⟨60, 32, .read⟩], [], _, rfl, by decide⟩,
    ⟨machine typed [.access ⟨64, 32, .read⟩], [], _, rfl, by decide⟩⟩

/-! ### Witnesses: the type code -/

/-- "Rust" for the first clause; for the second its last byte, and the last byte of "RuSt". -/
theorem witness_ValidityAsymmetryIsKept :
    (∃ t : Word, (∀ i : BitVec 2, isAlpha (byteOf t i) = true) ∧ (byteOf t 2).getLsbD 5 = true) ∧
    ∀ ty ∈ [(0x52757300 : Word), 0x52755300], ∃ b s t, s.block.mode = .parse ∧
      s.block.phase = .type ∧ s.block.fidx = 3 ∧ s.block.type = ty ∧ exec (.push b) s = .next t :=
  ⟨⟨0x52757374, by decide⟩, fun ty _ =>
    ⟨0x74, machine { blockAt .parse .type 3 with type := ty }, _, rfl, rfl, rfl, rfl, rfl⟩⟩

/-! ### Witnesses: errors -/

/-- For each error the block can raise, a step that enters ERROR with it (LengthMismatch from a state no
run reaches). -/
theorem witness_ErrorsRecordTheirInformation :
    ∀ p ∈ [(ErrCode.truncatedInput, blockAt .parse .crc 3, commandOf .endInput),
        (.invalidTypeCode, blockAt .parse .type 3, commandOf (.push 0)),
        (.lengthMismatch, { blockAt .parse .type 3 with type := 0x52755300, cnt := 1 },
          commandOf (.push 0x74)),
        (.checksumMismatch, blockAt .parse .crc 3, commandOf (.push 1)),
        (.protocolError, blockAt .encode .crc 0, writeOf .type 7),
        (.protocolError, Block.reset, commandOf .emit),
        (.illegalCommand, Block.reset, writeOf .cmd 0xFF000000)],
      p.2.1.phase ≠ .error ∧ ((stepNext (machine p.2.1 [p.2.2])).map fun t =>
        (t.block.phase, t.block.err)) = some (.error, p.1) := by decide +kernel

/-- The same steps meet the premises of precision: one of the three errors that change nothing before
entry, and one that does. -/
theorem witness_ErrorEntryIsPrecise :
    ∃ e rest s t, State.pending s = e :: rest ∧ step s = .next t ∧ s.block.phase ≠ .error ∧
      t.block.phase = .error ∧ t.block.err ∈ [ErrCode.truncatedInput, .protocolError,
        .illegalCommand] :=
  ⟨_, [], machine (blockAt .parse .crc 3) [commandOf .endInput], _, rfl, rfl, by decide, rfl,
    by decide⟩

/-- Phase ERROR with each kind of access pending. -/
theorem witness_ErrorIsSticky :
    ∀ e ∈ [writeOf .cmd 0xFF000000, writeOf .len 7, writeOf .type 7, readOf .status],
      ∃ s : State, s.block.phase = .error ∧ s.pending = [e] ∧
        ∃ x, decode 0xFF000000 = .error x :=
  fun e _ => ⟨machine mismatched [e], rfl, rfl, .opcode, rfl⟩

/-- Each of the four ways out of ERROR. -/
theorem witness_OnlyRestartsLeaveError :
    ∀ e ∈ [commandOf .initParse, commandOf .initEncode, commandOf .sreset, .hardReset],
      mismatched.phase = .error ∧
      ((stepNext (machine mismatched [e])).map fun t => decide (t.block.phase = .error))
        = some false := by decide +kernel

theorem witness_FirstErrorIsKept :
    ∃ p s t, s.block.phase = .error ∧
      (∀ e ∈ p, e ≠ commandOf .initParse ∧ e ≠ commandOf .initEncode ∧ e ≠ commandOf .sreset ∧
        e ≠ .hardReset) ∧ runProgram p s = .next t :=
  ⟨[commandOf (.push 1), writeOf .cmd 0xFF000000, readOf .erra], machine mismatched, _, rfl,
    by decide, rfl⟩

/-! ### Witnesses: invariants -/

/-- A block in the middle of a payload keeps R15. -/
theorem witness_inv_payload : ({ blockAt .parse .payload 0 with len := 2, cnt := 1 } : Block).Inv := by
  constructor <;> decide

/-- A block in ERROR keeps R15. -/
theorem witness_inv_error : mismatched.Inv := by constructor <;> decide

theorem witness_StepKeepsTheInvariants : ∃ s t, s.block.Inv ∧ step s = .next t :=
  ⟨machine _ [commandOf (.push 0x41)], _, witness_inv_payload, rfl⟩

theorem witness_StepKeepsTheReachablePairs :
    ∃ s t, s.block.pairReachable = true ∧ step s = .next t :=
  ⟨machine mismatched [commandOf .initEncode], _, rfl, rfl⟩

/-- The premises of the three clauses, the last two from states no run reaches. -/
theorem witness_UnreachableErrorsAreNeverRaised :
    (∃ s t, step s = .next t ∧ s.block.Inv ∧ t.block.err = .lengthMismatch) ∧
    (∃ s t, step s = .next t ∧ t.block.err = .wrongLength) ∧
    ∃ s t, step s = .next t ∧ t.block.err = .invalidText :=
  ⟨⟨machine { mismatched with err := .lengthMismatch } [commandOf .emit], _, rfl,
      by constructor <;> decide, rfl⟩,
    ⟨machine { mismatched with err := .wrongLength } [commandOf .emit], _, rfl, rfl⟩,
    ⟨machine { mismatched with err := .invalidText } [commandOf .emit], _, rfl, rfl⟩⟩

/-- In ENCODE `wcrc` is 0, and in PARSE no byte stands in OUT. -/
theorem witness_StepKeepsIdleHalvesClear :
    ∀ m ∈ [Mode.none, .parse, .encode], ∃ s t,
      (s.block.mode ≠ .parse → s.block.wcrc = 0) ∧
      (s.block.mode ≠ .encode → s.block.out = 0 ∧ s.block.outv = false) ∧ s.block.mode = m ∧
      step s = .next t :=
  fun m _ => ⟨machine (blockAt m .error 0) [commandOf .nop], _, fun _ => rfl, fun _ => ⟨rfl, rfl⟩,
    rfl, rfl⟩

/-- A step along each kind of move. -/
theorem witness_PhasesMoveAlongTheWireImage :
    ∀ p ∈ [(blockAt .encode .len 3, commandOf .emit, Phase.type),
        (blockAt .encode .type 3, commandOf .emit, .crc),
        ({ blockAt .encode .type 3 with len := 1 }, commandOf .emit, .payload),
        (blockAt .encode .len 3, commandOf .endInput, .error),
        (mismatched, commandOf .initParse, .len), (mismatched, .hardReset, .idle)],
      p.1.phase ≠ p.2.2 ∧
      ((stepNext (machine p.1 [p.2.1])).map (·.block.phase)) = some p.2.2 := by decide +kernel

theorem witness_CountersDoNotWrap : ∃ i s t, s.block.Inv ∧ exec i s = .next t :=
  ⟨.push 0x41, machine _, _, witness_inv_payload, rfl⟩

/-! ### Witnesses: sequences -/

theorem witness_FourBytesMakeAField :
    ∀ m ∈ [Mode.encode, .parse], ∀ p ∈ [Phase.len, .crc],
      ∃ s : State, s.block.mode = m ∧ s.block.phase = p ∧ s.block.fidx = 0 :=
  fun m _ p _ => ⟨machine (blockAt m p 0), rfl, rfl, rfl⟩

/-- An empty payload and one byte. -/
theorem witness_SerialisingReadsTheWireImage :
    (∃ (d : List Byte) (s : State), s.block.len.toNat = d.length ∧ d = []) ∧
    ∃ (d : List Byte) (s : State), s.block.len.toNat = d.length ∧ d = [0x41] :=
  ⟨⟨[], State.reset, rfl, rfl⟩, ⟨[0x41], machine { Block.reset with len := 1 }, rfl, rfl⟩⟩

/-- A buffer with each result of the reference parse, cut at its end. -/
theorem witness_ParseResultArrivesWithItsField :
    let iend : List Byte := [0, 0, 0, 0, 0x49, 0x45, 0x4E, 0x44]
    (∃ bytes : List Byte, 12 ≤ bytes.length ∧ parseRef bytes = .ok 0x49454E44 []) ∧
    (∃ bytes : List Byte, 8 ≤ bytes.length ∧ parseRef bytes = .err .invalidTypeCode 0x52757374 0) ∧
    (∃ bytes : List Byte, 12 ≤ bytes.length ∧
      parseRef bytes = .err .checksumMismatch 0 0xAE426082) ∧
    (∃ bytes : List Byte, 11 ≤ bytes.length ∧ parseRef bytes = .err .truncatedInput 0 0) ∧
    ∃ u, runProgram (assemble [.cmd .initParse, .pushb (iend ++ [0xAE, 0x42, 0x60, 0x82])])
      State.reset = .next u ∧ u.block.phase = .done :=
  ⟨⟨[0, 0, 0, 0, 0x49, 0x45, 0x4E, 0x44, 0xAE, 0x42, 0x60, 0x82], by decide, by decide +kernel⟩,
    ⟨[0, 0, 0, 0, 0x52, 0x75, 0x73, 0x74], by decide, by decide +kernel⟩,
    ⟨[0, 0, 0, 0, 0x49, 0x45, 0x4E, 0x44, 0, 0, 0, 0], by decide, by decide +kernel⟩,
    ⟨[0, 0, 0, 0, 0x49, 0x45, 0x4E, 0x44, 0xAE, 0x42, 0x60], by decide, by decide +kernel⟩,
    ⟨_, rfl, by decide +kernel⟩⟩

/-- "RuSt", which PARSE accepts, and "1234", which it does not (P5, P6). -/
theorem witness_SerialisedChunksParseBack :
    (∃ (d : List Byte) (s : State), s.block.len.toNat = d.length ∧ validRaw s.block.type = true) ∧
    ∃ (d : List Byte) (s : State), s.block.len.toNat = d.length ∧ validRaw s.block.type = false :=
  ⟨⟨[0x41], machine { typed with len := 1 }, rfl, by decide⟩,
    ⟨[0x41], machine { Block.reset with len := 1, type := 0x31323334 }, rfl, by decide⟩⟩

/-- Section 3: byte 6 bit 5 (the type code turns invalid), and the last bit of a one-byte payload. -/
theorem witness_AnySingleBitFlipIsDetected :
    let flipped (ty : Word) (d : List Byte) (i j : Nat) :=
      (be32Pack ty ++ d).set i ((be32Pack ty ++ d).getD i 0#8 ^^^ (1#8 <<< j))
    (be32Pack 0x52757374 ++ [0x41] = flipped 0x52755374 [0x41] 2 5 ∧ validRaw 0x52757374 = false) ∧
    (be32Pack 0x52755374 ++ [0xC1] = flipped 0x52755374 [0x41] 4 7 ∧ validRaw 0x52755374 = true) ∧
    4 < 4 + [(0x41 : Byte)].length ∧ [(0x41 : Byte)].length < 2 ^ 32 := by
  decide +kernel

end Sys2Proof.Tests
end

section
/-! PROOFS. The scope of the block (00_scope.md): a step completes one event (R10, R13, R43), and the window is
one 64-byte line of the host's address space (R6, R33, R41). -/

namespace Sys2Proof.Machine

/-! ### One event for each step -/

theorem writeOf_ne_readOf (r r' : Reg) (v : Word) : writeOf r v ≠ readOf r' := by
  simp [writeOf, readOf]

theorem hardReset_ne_readOf (r : Reg) : Event.hardReset ≠ readOf r := by
  simp [readOf]

/-- An event that is performed hands the host one value if it is a read of a register, and none otherwise. -/
theorem reads_of_perform {e : Event} {s t : State} (h : perform e s = .next t) :
    ∃ v : List Word, t.reads = s.reads ++ v ∧ v.length ≤ 1 ∧ (v.length = 1 ↔ ∃ r : Reg, e = readOf r) := by
  rcases perform_cases h with ⟨r, rfl, rfl⟩ | ⟨r, w, rfl, rfl⟩ | ⟨rfl, rfl⟩
  · exact ⟨[regRead s.block r], observe_reads _ _, le_rfl, fun _ => ⟨r, rfl⟩, fun _ => rfl⟩
  · exact ⟨[], by simp, by simp, by simp [writeOf_ne_readOf]⟩
  · exact ⟨[], by simp, by simp, by simp [hardReset_ne_readOf]⟩

/-- Settles O30: `step_nil` when nothing is pending; otherwise the step is one `perform` of the next event, which
leaves the rest pending and reads at most one value. -/
theorem stepConsumesExactlyTheNextEvent : Obligations.StepConsumesExactlyTheNextEvent := by
  refine ⟨fun s => step_nil, fun e rest s t hp h => ⟨step_pending hp h, ?_⟩⟩
  exact reads_of_perform (s := { s with pending := rest }) ((step_cons hp).symm.trans h)

/-! ### The window in absolute addresses -/

/-- `BASE` starts a 64-byte line, whatever line the platform chooses (R6). -/
theorem base_mod : Config.base % 64 = 0 := Nat.mul_mod_right 64 Config.baseIndex

/-- A 32-bit access at an absolute address reaches the register whose offset from `BASE` it is at (R120). -/
theorem accessTarget_accessAt {address : Nat} {op : AccessOp} {r : Reg} :
    accessTarget (accessAt address 32 op) = .ok r ↔ address = Config.base + regOffset r := by
  simp only [accessTarget_eq_ok, accessAt, true_and]
  omega

/-- The addresses of the registers are the words of the line of `BASE` (R33, R41). -/
theorem exists_address_eq_iff {address : Nat} :
    (∃ r : Reg, address = Config.base + regOffset r) ↔
      address / 64 = Config.base / 64 ∧ address % 4 = 0 := by
  have hbase := base_mod
  constructor
  · rintro ⟨r, rfl⟩
    have hlt := regOffset_lt r
    have hmod := regOffset_mod r
    omega
  · rintro ⟨hline, hword⟩
    obtain ⟨r, hr⟩ := exists_regOffset (n := address - Config.base) (by omega) (by omega)
    exact ⟨r, by omega⟩

/-- Settles O35: a register's absolute address is `BASE` plus its offset, and the offsets fill the words of one
line. -/
theorem windowIsTheLineAtBase : Obligations.WindowIsTheLineAtBase :=
  ⟨base_mod, fun _ _ _ => accessTarget_accessAt, fun _ _ => by
    simp only [accessTarget_accessAt, exists_address_eq_iff]⟩

end Sys2Proof.Machine
end

section
/-! PROOFS. The state elements (10_state.md): the invariants of R15, which commands write which element (R14, R28 to
R30), and the fields of STATUS and FLAGS (R18, R26). -/

namespace Sys2Proof.Machine

/-! ### The invariants of R15 -/

/-- Settles O47, clause by clause: the phase is IDLE, with every counter and the error record 0. -/
theorem resetKeepsTheInvariants : Obligations.ResetKeepsTheInvariants where
  fidx_zero _ := rfl
  cnt_le _ := BitVec.le_refl 0#32
  cnt_lt h := nomatch h
  idle_none _ := rfl
  err_iff := by decide
  no_info _ := ⟨rfl, rfl, rfl⟩
  cnt_zero _ := rfl

/-- Error entry gives the invariants whatever the block was: in phase ERROR, R15 asks only for an error code. -/
theorem inv_raise {e : ErrCode} (he : e ≠ .none) (a b : Word) (k : Block) : (raise e a b k).Inv := by
  constructor <;> simp [he]

/-- The quiescent phases are those in which R15 asks nothing of LEN. -/
theorem inv_withLen {k : Block} (hk : k.Inv) (hq : quiescent k.phase = true) (v : Word) :
    { k with len := v }.Inv := by
  obtain ⟨hfidx, -, -, hmode, herr, hinfo, hcnt⟩ := hk
  rcases (quiescent_iff _).1 hq with hp | hp | hp <;> constructor <;> simp_all

@[simp] theorem word_zero_le (w : Word) : 0#32 ≤ w := BitVec.ule_iff_le.1 rfl

/-- A count below the length has a successor. -/
theorem toNat_add_one_of_lt {c l : Word} (h : c < l) : (c + 1#32).toNat = c.toNat + 1 := by
  bv_omega

theorem add_one_lt_of_lt_of_ne {c l : Word} (h : c < l) (hne : c + 1#32 ≠ l) : c + 1#32 < l := by
  bv_omega

/-- A move out of a running phase keeps the empty error record or raises an error, so what turns on the move are the
counters: `cnt` is 0 before the payload, below `len` in it, and at most `len` after it, where its last byte ends the
phase.  BTEST and an EMIT with no byte due write only elements that R15 does not speak of. -/
theorem move_keeps_inv {i : Instr} {k k' : Block} (h : Move i k k') (hk : k.Inv) : k'.Inv := by
  have herr := hk.err_iff
  have hinfo := hk.no_info
  cases h with
  | nop | ignored | ignoredDone => exact hk
  | sreset => exact resetKeepsTheInvariants
  | btest | emitNone => exact { hk with }
  | refused | typeInvalid | typeMismatch | crcMismatch | truncated => exact inv_raise (by simp) _ _ _
  | initParse | initEncode => constructor <;> simp
  | lenByte _ _ _ hp | lenLast _ _ _ hp | typeByte _ _ _ hp | typeEmpty _ _ _ hp
  | emitLenByte _ _ hp | emitLenLast _ _ hp | emitTypeByte _ _ hp | emitTypeEmpty _ _ hp =>
    have hcnt := hk.cnt_zero (by simp [hp])
    constructor <;> simp_all
  | typeLast _ _ _ hp _ _ hl | emitTypeLast _ _ hp _ hl =>
    have hcnt := hk.cnt_zero (by simp [hp])
    have hpos := (BitVec.pos_iff_ne_zero k.len).2 hl
    constructor <;> simp_all
  | payloadByte _ _ _ hp hc | echoByte _ _ _ hp hc =>
    have hfidx := hk.fidx_zero (by simp [hp])
    have hlt := add_one_lt_of_lt_of_ne (hk.cnt_lt hp) hc
    have hle := BitVec.le_of_lt hlt
    constructor <;> simp_all
  | crcByte _ _ _ hp | emitCrcByte _ _ hp =>
    have hle := hk.cnt_le (by simp [hp])
    constructor <;> simp_all
  | payloadLast | echoLast | crcMatch | emitCrcLast => constructor <;> simp_all

/-- The moves of every event keep R15. -/
theorem eventMove_keeps_inv (e : Event) (k k' : Block) (h : EventMove e k k') (hk : k.Inv) : k'.Inv := by
  cases h with
  | none | illegalIgnored => exact hk
  | command _ _ _ _ _ hmove => exact move_keeps_inv hmove hk
  | illegal | lenRefused | typeRefused => exact inv_raise (by simp) _ _ _
  | lenWritten v _ hq => exact inv_withLen hk hq v
  | typeWritten => exact { hk with }
  | hardReset => exact resetKeepsTheInvariants

/-- Settles O48: `step_keeps` over the moves of every event. -/
theorem stepKeepsTheInvariants : Obligations.StepKeepsTheInvariants :=
  fun _ _ => step_keeps eventMove_keeps_inv

/-! ### The writers of each element -/

/-- Settles O22, by cases on the command's move: each writes elements that its own rule lists. -/
theorem eachElementHasOnlyItsWriters : Obligations.EachElementHasOnlyItsWriters := by
  intro i s t h
  have hmove := move_of_exec h
  generalize s.block = k, t.block = k' at hmove ⊢
  cases hmove with
  | nop | ignored | ignoredDone => simp
  | initParse | initEncode | sreset => simp
  | btest => simp
  | refused _ _ hi hp => simp [refuseCommand, hi, hp]
  | truncated _ _ hp => rcases hp with hp | hp | hp | hp <;> simp [hp]
  | typeInvalid _ _ hm hp | typeMismatch _ _ hm hp | crcMismatch _ _ hm hp => simp [hm, hp]
  | lenByte _ _ hm hp | lenLast _ _ hm hp | typeByte _ _ hm hp | typeEmpty _ _ hm hp | typeLast _ _ hm hp
  | payloadByte _ _ hm hp | payloadLast _ _ hm hp | crcByte _ _ hm hp | crcMatch _ _ hm hp
  | echoByte _ _ hm hp | echoLast _ _ hm hp => simp [hm, hp]
  | emitLenByte _ hm hp | emitLenLast _ hm hp | emitTypeByte _ hm hp | emitTypeEmpty _ hm hp
  | emitTypeLast _ hm hp | emitCrcByte _ hm hp | emitCrcLast _ hm hp => simp [hm, hp]
  | emitNone _ hm hp => rcases hp with hp | hp <;> simp [hm, hp]

/-- A legal word is the word of the command it decodes to, so its write is that command. -/
theorem eq_encode_of_decode {w : Word} {i : Instr} (h : decode w = .ok i) : w = encode i := by
  obtain ⟨hrsv, hform⟩ := decode_ok_fields h
  obtain ⟨hopc, harg⟩ := decodeForm_ok hform
  exact word_eq_of_fields hopc.symm (hrsv.trans (encode_opc_rsv i).2.symm) harg.symm

/-- Among the commands only BTEST and SRESET write BTR (R30). -/
theorem move_btr {i : Instr} {k k' : Block} (h : Move i k k') (hne : k'.btr ≠ k.btr) :
    (∃ sel idx, i = .btest sel idx) ∨ i = .sreset := by
  cases h with
  | btest sel idx => exact .inl ⟨sel, idx, rfl⟩
  | sreset => exact .inr rfl
  | _ => exact absurd rfl hne

/-- Among the commands only EMIT, PUSH in ENCODE and the three restarts write OUT.V (R30). -/
theorem move_outv {i : Instr} {k k' : Block} (h : Move i k k') (hne : k'.outv ≠ k.outv) :
    i = .emit ∨ (k.mode = .encode ∧ ∃ b, i = .push b) ∨ i = .initParse ∨ i = .initEncode ∨ i = .sreset := by
  cases h with
  | emitLenByte | emitLenLast | emitTypeByte | emitTypeEmpty | emitTypeLast | emitCrcByte | emitCrcLast
  | emitNone => exact .inl rfl
  | echoByte b _ hm | echoLast b _ hm => exact .inr (.inl ⟨hm, b, rfl⟩)
  | initParse | initEncode | sreset => simp
  | _ => exact absurd rfl hne

/-- Of all events only a command and the hardware reset write BTR and OUT.V. -/
theorem eventMove_btr_outv {e : Event} {k k' : Block} (h : EventMove e k k') :
    (∃ i, e = commandOf i ∧ Move i k k') ∨ e = .hardReset ∨ (k'.btr = k.btr ∧ k'.outv = k.outv) := by
  cases h with
  | command w i _ _ hd hmove => exact .inl ⟨i, congrArg (writeOf .cmd) (eq_encode_of_decode hd), hmove⟩
  | hardReset => exact .inr (.inl rfl)
  | _ => exact .inr (.inr ⟨rfl, rfl⟩)

/-- Settles O23: the writers by `move_btr` and `move_outv`; FLAGS is worked out from TYPE. -/
theorem flagsHaveOnlyTheirWriters : Obligations.FlagsHaveOnlyTheirWriters := by
  intro e rest s t hp h
  have hevent := eventMove_btr_outv (eventMove_of_step hp h)
  refine ⟨fun hne => ?_, fun hne => ?_, rfl, fun htype => congrArg flags htype⟩
  · rcases hevent with ⟨i, rfl, hmove⟩ | rfl | ⟨hbtr, -⟩
    · rcases move_btr hmove hne with ⟨sel, idx, rfl⟩ | rfl
      · exact .inl ⟨sel, idx, rfl⟩
      · exact .inr (.inl rfl)
    · exact .inr (.inr rfl)
    · exact absurd hbtr hne
  · rcases hevent with ⟨i, rfl, hmove⟩ | rfl | ⟨-, houtv⟩
    · rcases move_outv hmove hne with rfl | ⟨hm, b, rfl⟩ | rfl | rfl | rfl
      · exact .inl rfl
      · exact .inr (.inl ⟨hm, b, rfl⟩)
      all_goals simp
    · simp
    · exact absurd houtv hne

/-- Settles O53: the payload counts below `len`, so without a wrap, and holds `fidx` at 0; the last byte of a field
leaves the phase. -/
theorem countersDoNotWrap : Obligations.CountersDoNotWrap := by
  intro i s t hk h
  have hmove := move_of_exec h
  generalize s.block = k, t.block = k' at hk hmove ⊢
  cases hmove with
  | initParse | initEncode | sreset => exact .inl ⟨by simp, rfl, rfl⟩
  | nop | ignored | ignoredDone | btest | emitNone | refused | truncated => exact .inr ⟨.inl rfl, .inl rfl⟩
  | payloadByte _ _ _ hp | echoByte _ _ _ hp =>
    exact .inr ⟨.inr (toNat_add_one_of_lt (hk.cnt_lt hp)), .inl rfl⟩
  | payloadLast _ _ _ hp | echoLast _ _ _ hp =>
    exact .inr ⟨.inr (toNat_add_one_of_lt (hk.cnt_lt hp)), .inl (hk.fidx_zero (by simp [hp])).symm⟩
  | lenByte _ _ _ _ hf | typeByte _ _ _ _ hf | crcByte _ _ _ _ hf
  | emitLenByte _ _ _ hf | emitTypeByte _ _ _ hf | emitCrcByte _ _ _ hf =>
    have hnext : (k.fidx + 1#2).toNat = k.fidx.toNat + 1 := by bv_omega
    exact .inr ⟨.inl rfl, .inr (.inl hnext)⟩
  | lenLast _ _ _ hp hf | typeInvalid _ _ _ hp hf | typeEmpty _ _ _ hp hf | typeMismatch _ _ _ hp hf
  | typeLast _ _ _ hp hf | crcMatch _ _ _ hp hf | crcMismatch _ _ _ hp hf
  | emitLenLast _ _ hp hf | emitTypeEmpty _ _ hp hf | emitTypeLast _ _ hp hf | emitCrcLast _ _ hp hf =>
    exact .inr ⟨.inl rfl, .inr (.inr ⟨hf, rfl, by simp [hp]⟩)⟩

/-! ### The half of the block that the mode does not use -/

/-- WCRC is 0 outside PARSE, and no byte stands in OUT outside ENCODE (R14, R22, R23). -/
def Block.idleHalvesClear (k : Block) : Prop :=
  (k.mode ≠ .parse → k.wcrc = 0#32) ∧ (k.mode ≠ .encode → k.out = 0#8 ∧ k.outv = false)

theorem idleHalvesClear_reset : Block.reset.idleHalvesClear := ⟨fun _ => rfl, fun _ => ⟨rfl, rfl⟩⟩

/-- Only PARSE shifts into WCRC and only ENCODE produces a byte; who changes the mode clears both. -/
theorem move_keeps_idleHalvesClear {i : Instr} {k k' : Block} (h : Move i k k') (hk : k.idleHalvesClear) :
    k'.idleHalvesClear := by
  cases h with
  | initParse | initEncode | sreset => exact ⟨fun _ => rfl, fun _ => ⟨rfl, rfl⟩⟩
  | crcByte _ _ hm | crcMatch _ _ hm | crcMismatch _ _ hm => exact ⟨fun hne => absurd hm hne, hk.2⟩
  | emitLenByte _ hm | emitLenLast _ hm | emitTypeByte _ hm | emitTypeEmpty _ hm | emitTypeLast _ hm
  | emitCrcByte _ hm | emitCrcLast _ hm | emitNone _ hm | echoByte _ _ hm | echoLast _ _ hm =>
    exact ⟨hk.1, fun hne => absurd hm hne⟩
  | _ => exact hk

theorem eventMove_keeps_idleHalvesClear (e : Event) (k k' : Block) (h : EventMove e k k')
    (hk : k.idleHalvesClear) : k'.idleHalvesClear := by
  cases h with
  | command _ _ _ _ _ hmove => exact move_keeps_idleHalvesClear hmove hk
  | hardReset => exact idleHalvesClear_reset
  | _ => exact hk

/-- Settles O51: `step_keeps` over the moves of every event. -/
theorem stepKeepsIdleHalvesClear : Obligations.StepKeepsIdleHalvesClear :=
  ⟨idleHalvesClear_reset, fun _ _ => step_keeps eventMove_keeps_idleHalvesClear⟩

/-! ### The fields of STATUS and FLAGS -/

/-- A field of a word, bit by bit. -/
theorem extractLsb'_eq_of_getLsbD {w : Word} {start n : Nat} {x : BitVec n}
    (h : ∀ i < n, w.getLsbD (start + i) = x.getLsbD i) : w.extractLsb' start n = x := by
  apply BitVec.eq_of_getLsbD_eq
  intro i hi
  simp only [BitVec.getLsbD_extractLsb', hi, decide_true, Bool.true_and, h i hi]

/-- The bits above EPHASE are 0. -/
theorem extractLsb'_statusWord_reserved (k : Block) : (statusWord k).extractLsb' 23 9 = 0#9 := by
  refine extractLsb'_eq_of_getLsbD fun i hi => ?_
  have hhigh : (statusWord k).getLsbD (23 + i) = (phaseCode k.ephase).getLsbD (3 + i) := by
    rw [statusWord_getLsbD]
    interval_cases i <;> rfl
  rw [hhigh, BitVec.getLsbD_of_ge _ _ (by omega), BitVec.getLsbD_zero]

/-- Settles O36: the fields bit by bit (`statusWord_getLsbD`), the codes and the reset value by evaluation. -/
theorem statusFieldsAreInPlace : Obligations.StatusFieldsAreInPlace := by
  refine ⟨fun k => ⟨?_, ?_, ?_, ?_, ?_, ?_, statusWord_getLsbD k 16, ?_, ?_, extractLsb'_statusWord_reserved k⟩,
    rfl, rfl, rfl, rfl, rfl, fun _ _ => rfl⟩
  all_goals
    refine extractLsb'_eq_of_getLsbD fun i hi => (statusWord_getLsbD k _).trans ?_
    interval_cases i <;> rfl

/-- `is_alpha` as the byte ranges of R58. -/
theorem isAlpha_eq_decide (b : Byte) : isAlpha b
    = decide ((0x41 ≤ b.toNat ∧ b.toNat ≤ 0x5A) ∨ (0x61 ≤ b.toNat ∧ b.toNat ≤ 0x7A)) := by
  rw [Bool.eq_iff_iff, isAlpha_iff, decide_eq_true_eq]

/-- The classification bit of byte `i` of a word, as a bit of the word (R59). -/
theorem bit5_byteOf (w : Word) (i : BitVec 2) : bit5 (byteOf w i) = w.getLsbD (24 - 8 * i.toNat + 5) := by
  rw [bit5_eq, byteOf_getLsbD]
  rfl

/-- Settles O37: bit `i` of FLAGS is an output of the decoder (`flags_getLsbD`), and each output is a bit or a byte
range of TYPE. -/
theorem flagsAreTheirBitsOfType : Obligations.FlagsAreTheirBitsOfType := by
  intro k
  have hbit := flags_getLsbD k.type
  have hclass (i : BitVec 2) := bit5_byteOf k.type i
  have halpha (i : BitVec 2) := isAlpha_eq_decide (byteOf k.type i)
  have htext := congrArg₂ and (congrArg₂ and (congrArg₂ and (halpha 0) (halpha 1)) (halpha 2)) (halpha 3)
  refine ⟨?_, ?_, ?_, ?_, ?_, ?_, ?_, ?_, ?_, ?_, ?_⟩
  · exact (hbit 0).trans (congrArg not (hclass 0))
  · exact (hbit 1).trans (congrArg not (hclass 1))
  · exact (hbit 2).trans (congrArg not (hclass 2))
  · exact (hbit 3).trans (hclass 3)
  · exact (hbit 4).trans (halpha 0)
  · exact (hbit 5).trans (halpha 1)
  · exact (hbit 6).trans (halpha 2)
  · exact (hbit 7).trans (halpha 3)
  · exact (hbit 8).trans htext
  · exact (hbit 9).trans (congrArg₂ and htext (congrArg not (hclass 2)))
  · refine extractLsb'_eq_of_getLsbD fun i _ => (hbit _).trans ?_
    rw [List.getD_eq_default _ _ (by simp), BitVec.getLsbD_zero]

end Sys2Proof.Machine
end

section
/-! PROOFS. The register window (20_memory.md): which accesses are admitted, and that an admitted one completes
(R38, R42). -/

namespace Sys2Proof.Machine

/-- An admitted access completes, whatever the block's state: a read observes the register's value, a write
changes the block (R42). -/
theorem exists_performAccess_next {a : Access} (h : ∃ r, accessTarget a = .ok r) (s : State) :
    ∃ t, performAccess a s = .next t := by
  obtain ⟨r, hr⟩ := h
  obtain ⟨off, width, op⟩ := a
  simp only [performAccess, hr]
  cases op with
  | read => exact ⟨_, rfl⟩
  | write v => exact ⟨_, regWrite_eq r v s⟩

/-- An access that names no register is refused, whatever the block's state. -/
theorem exists_performAccess_refused {a : Access} (h : ¬ ∃ r, accessTarget a = .ok r) (s : State) :
    ∃ e, performAccess a s = .refused e := by
  cases ha : accessTarget a with
  | ok r => exact absurd ⟨r, ha⟩ h
  | error e => exact ⟨e, by simp only [performAccess, ha]⟩

/-- Settles O34: the step is `performAccess`, and the accesses with a register as their target are the aligned words
of the window (`admitted_iff_wellFormed`). -/
theorem onlyAlignedWordAccessesAreAdmitted : Obligations.OnlyAlignedWordAccessesAreAdmitted := by
  intro s rest a hp
  have hstep : step s = performAccess a { s with pending := rest } := step_cons hp
  have hadmit := (admitted_iff_wellFormed a).trans (accessWellFormed_iff a)
  rw [hstep]
  exact ⟨fun hok => exists_performAccess_next (hadmit.2 hok) _,
    fun hbad => exists_performAccess_refused (mt hadmit.1 hbad) _⟩

end Sys2Proof.Machine
end

section
/-! PROOFS. The encoding (30_encoding.md): the rows of the opcode map and the decoder (R50), the illegal words (R51),
and the decoding order of one CMD write (R54). -/

namespace Sys2Proof.Machine

/-! ### The rows of the opcode map, field by field -/

/-- A masked word compared with a pattern is three masked fields compared with the pattern's (R48). -/
theorem and_eq_iff_fields {w m p : Word} : w &&& m = p ↔
    opcField w &&& opcField m = opcField p ∧ rsvField w &&& rsvField m = rsvField p ∧
      argField w &&& argField m = argField p := by
  have hopc : opcField (w &&& m) = opcField w &&& opcField m := BitVec.extractLsb'_and
  have hrsv : rsvField (w &&& m) = rsvField w &&& rsvField m := BitVec.extractLsb'_and
  have harg : argField (w &&& m) = argField w &&& argField m := BitVec.extractLsb'_and
  rw [← hopc, ← hrsv, ← harg]
  constructor
  · rintro rfl
    exact ⟨rfl, rfl, rfl⟩
  · rintro ⟨h1, h2, h3⟩
    exact word_eq_of_fields h1 h2 h3

/-- Every row fixes OPC and RSV whole, to an assigned opcode and to 0; only its mask over ARG is its own. -/
theorem opcodeTable_fields : ∀ r ∈ opcodeTable,
    opcField r.mask = BitVec.allOnes 8 ∧ rsvField r.mask = BitVec.allOnes 16 ∧
      opcField r.pattern ≤ 0x07#8 ∧ rsvField r.pattern = 0#16 ∧ argField r.pattern = 0#8 := by
  decide

/-- A word belongs to a row when OPC is the row's, RSV is 0, and ARG is 0 under the row's mask. -/
theorem rowMatches_iff_fields {w : Word} {r : OpcodeRow} (hr : r ∈ opcodeTable) : rowMatches w r = true ↔
    opcField w = opcField r.pattern ∧ rsvField w = 0#16 ∧ argField w &&& argField r.mask = 0#8 := by
  obtain ⟨hopc, hrsv, -, hrsv0, harg0⟩ := opcodeTable_fields r hr
  rw [rowMatches, beq_iff_eq, and_eq_iff_fields, hopc, hrsv, hrsv0, harg0, BitVec.and_allOnes,
    BitVec.and_allOnes]

/-! ### The decoder and the rows -/

/-- With an assigned opcode and RSV = 0, the operand form decides. -/
theorem decode_eq_decodeForm {w : Word} (hopc : opcField w ≤ 0x07#8) (hrsv : rsvField w = 0#16) :
    decode w = decodeForm (opcField w) (argField w) := by
  simp [decode, BitVec.not_lt.2 hopc, hrsv]

/-- BTEST's mask over ARG keeps `ARG[3:2]`. -/
theorem extractLsb'_two_eq_zero_of_and {arg : Byte} (h : arg &&& 0x0C#8 = 0#8) :
    arg.extractLsb' 2 2 = 0#2 := by
  revert arg; decide +kernel

/-- An ARG that a row's mask admits has that row's operand form. -/
theorem exists_decodeForm_of_row {r : OpcodeRow} (hr : r ∈ opcodeTable) {arg : Byte}
    (harg : arg &&& argField r.mask = 0#8) :
    ∃ i, decodeForm (opcField r.pattern) arg = .ok i ∧ opcodeRow i = r := by
  have hnone : arg &&& 0xFF#8 = 0#8 → arg = 0#8 := BitVec.and_allOnes.symm.trans
  simp only [opcodeTable, List.mem_cons, List.not_mem_nil, or_false] at hr
  rcases hr with rfl | rfl | rfl | rfl | rfl | rfl | rfl | rfl
  · exact ⟨.nop, if_pos (hnone harg), rfl⟩
  · exact ⟨.initParse, if_pos (hnone harg), rfl⟩
  · exact ⟨.initEncode, if_pos (hnone harg), rfl⟩
  · exact ⟨.push arg, rfl, rfl⟩
  · exact ⟨.endInput, if_pos (hnone harg), rfl⟩
  · exact ⟨.emit, if_pos (hnone harg), rfl⟩
  · exact ⟨.btest _ _, if_pos (extractLsb'_two_eq_zero_of_and harg), rfl⟩
  · exact ⟨.sreset, if_pos (hnone harg), rfl⟩

/-- The words of a row are the legal words whose command stands in it (R50). -/
theorem rowMatches_iff_decode {w : Word} {r : OpcodeRow} (hr : r ∈ opcodeTable) :
    rowMatches w r = true ↔ ∃ i, decode w = .ok i ∧ opcodeRow i = r := by
  constructor
  · intro h
    obtain ⟨hopc, hrsv, harg⟩ := (rowMatches_iff_fields hr).1 h
    obtain ⟨-, -, hassigned, -, -⟩ := opcodeTable_fields r hr
    rw [decode_eq_decodeForm (hopc ▸ hassigned) hrsv, hopc]
    exact exists_decodeForm_of_row hr harg
  · rintro ⟨i, hi, rfl⟩
    rw [eq_encode_of_decode hi]
    exact encode_in_row i

/-- The map holds the row of each command once. -/
theorem opcodeTable_filter_eq (i : Instr) :
    (opcodeTable.filter fun r => decide (opcodeRow i = r)) = [opcodeRow i] := by
  cases i <;> rfl

/-- A legal word belongs to the row of its command and to no other. -/
theorem filter_rowMatches_of_legal {w : Word} {i : Instr} (h : decode w = .ok i) :
    opcodeTable.filter (rowMatches w) = [opcodeRow i] := by
  rw [← opcodeTable_filter_eq i]
  refine List.filter_congr fun r hr => ?_
  rw [Bool.eq_iff_iff, rowMatches_iff_decode hr, h]
  simp

/-- An illegal word belongs to no row. -/
theorem filter_rowMatches_of_illegal {w : Word} {e : Illegal} (h : decode w = .error e) :
    opcodeTable.filter (rowMatches w) = [] := by
  refine List.filter_eq_nil_iff.2 fun r hr => ?_
  simp [rowMatches_iff_decode hr, h]

/-- Settles O26: the rows that a legal word matches are its command's row alone, and an illegal word matches none. -/
theorem legalWordsMatchOneRow : Obligations.LegalWordsMatchOneRow := by
  intro w
  change ((∃ i, decode w = .ok i) ↔ (opcodeTable.filter (rowMatches w)).length = 1) ∧
    (opcodeTable.filter (rowMatches w)).length ≤ 1 ∧
    ∀ i, decode w = .ok i → opcodeTable.filter (rowMatches w) = [opcodeRow i]
  refine ⟨?_, ?_, fun _ => filter_rowMatches_of_legal⟩ <;> cases h : decode w with
  | ok i => simp [filter_rowMatches_of_legal h]
  | error e => simp [filter_rowMatches_of_illegal h]

/-! ### The illegal words -/

theorem decodeNone_isError {i : Instr} {arg : Byte} : (∃ e, decodeNone i arg = .error e) ↔ arg ≠ 0x00#8 := by
  by_cases h : arg = 0#8 <;> simp [decodeNone, h]

theorem decodeBitSelect_isError {arg : Byte} :
    (∃ e, decodeBitSelect arg = .error e) ↔ arg.extractLsb' 2 2 ≠ 0#2 := by
  by_cases h : arg.extractLsb' 2 2 = 0#2 <;> simp [decodeBitSelect, h]

theorem opcode_cases {opc : Byte} (h : opc ≤ 0x07#8) :
    opc = 0x00#8 ∨ opc = 0x01#8 ∨ opc = 0x02#8 ∨ opc = 0x03#8 ∨ opc = 0x04#8 ∨ opc = 0x05#8 ∨ opc = 0x06#8 ∨
      opc = 0x07#8 := by
  bv_omega

/-- The third case of R51: ARG breaks the form of its opcode, which PUSH's byte form cannot. -/
theorem decodeForm_isError {opc arg : Byte} (h : opc ≤ 0x07#8) : (∃ e, decodeForm opc arg = .error e) ↔
    (opc ∈ [0x00#8, 0x01#8, 0x02#8, 0x04#8, 0x05#8, 0x07#8] ∧ arg ≠ 0x00#8) ∨
      (opc = 0x06#8 ∧ arg.extractLsb' 2 2 ≠ 0#2) := by
  rcases opcode_cases h with rfl | rfl | rfl | rfl | rfl | rfl | rfl | rfl <;>
    simp [decodeForm, decodeNone_isError, decodeBitSelect_isError]

/-- The three cases of R51. -/
theorem decode_isError {w : Word} : (∃ e, decode w = .error e) ↔
    0x08#8 ≤ opcField w ∨ rsvField w ≠ 0#16 ∨
      (opcField w ∈ [0x00#8, 0x01#8, 0x02#8, 0x04#8, 0x05#8, 0x07#8] ∧ argField w ≠ 0x00#8) ∨
      (opcField w = 0x06#8 ∧ (argField w).extractLsb' 2 2 ≠ 0#2) := by
  by_cases hopc : opcField w ≤ 0x07#8
  · have hnot : ¬ 0x08#8 ≤ opcField w := by bv_omega
    by_cases hrsv : rsvField w = 0#16
    · simp only [decode_eq_decodeForm hopc hrsv, decodeForm_isError hopc, hnot, hrsv, ne_eq, not_true, false_or]
    · simp [decode, BitVec.not_lt.2 hopc, hrsv]
  · have hhigh : 0x08#8 ≤ opcField w := by bv_omega
    simp [decode, BitVec.not_le.1 hopc, hhigh]

/-! ### The write of a CMD word -/

section
variable {s : State} {w : Word} {rest : List Event} (hp : s.pending = writeOf .cmd w :: rest)
include hp

/-- A step that writes CMD is `writeCmd` of the word (R123). -/
theorem step_writeOf_cmd : step s = writeCmd w { s with pending := rest } :=
  (step_cons hp).trans (perform_writeOf .cmd w _)

theorem step_of_legal {i : Instr} (hd : decode w = .ok i) : step s = exec i { s with pending := rest } := by
  rw [step_writeOf_cmd hp, writeCmd, hd]

theorem step_of_illegal (hd : ∃ e, decode w = .error e) :
    step s = .next { s with pending := rest, block := illegalWord w s.block } := by
  obtain ⟨e, he⟩ := hd
  rw [step_writeOf_cmd hp, writeCmd, he]
  rfl

/-- In phase ERROR an illegal word is ignored (R51, R130). -/
theorem step_of_illegal_ignored (hd : ∃ e, decode w = .error e) (herr : s.block.phase = .error) :
    step s = .next { s with pending := rest } := by
  rw [step_of_illegal hp hd, illegalWord, if_pos herr]

/-- Outside phase ERROR an illegal word raises IllegalCommand and does nothing else (R51, R128). -/
theorem step_of_illegal_raise (hd : ∃ e, decode w = .error e) (herr : s.block.phase ≠ .error) :
    step s = .next { s with pending := rest, block := raise .illegalCommand w 0#32 s.block } := by
  rw [step_of_illegal hp hd, illegalWord, if_neg herr]

end

/-- Settles O27: the decoder's errors field by field (`decode_isError`), and the step of an illegal word in each
phase. -/
theorem illegalWordsAreTheThreeCases : Obligations.IllegalWordsAreTheThreeCases :=
  ⟨fun _ => decode_isError, fun _ _ _ hp hd => ⟨step_of_illegal_ignored hp hd, step_of_illegal_raise hp hd⟩⟩

/-! ### The decoding order -/

/-- The restart commands of R54. -/
abbrev Instr.isRestart (i : Instr) : Prop :=
  i = .initParse ∨ i = .initEncode ∨ i = .sreset ∨ i = .nop ∨ ∃ sel idx, i = .btest sel idx

/-- A command that is no restart command is PUSH, END or EMIT (R54). -/
theorem isStream_of_not_isRestart {i : Instr} (h : ¬ Instr.isRestart i) : Instr.isStream i := by
  cases i with
  | push b => exact .inl ⟨b, rfl⟩
  | endInput => exact .inr (.inl rfl)
  | emit => exact .inr (.inr rfl)
  | nop | initParse | initEncode | btest | sreset => exact absurd (by simp [Instr.isRestart]) h

/-- PUSH, END and EMIT are ignored in phase ERROR (R130). -/
theorem exec_stream_of_error {i : Instr} (hi : Instr.isStream i) {s : State} (herr : s.block.phase = .error) :
    exec i s = .next s := by
  have hblock : blockAfter i s.block = s.block := by
    rcases hi with ⟨b, rfl⟩ | rfl | rfl
    · simpa [blockAfter, herr] using pushBlock_cases b s.block
    · simpa [blockAfter, herr] using endBlock_cases s.block
    · simpa [blockAfter, herr] using emitBlock_cases s.block
  rw [exec_eq, hblock, withBlock_self]

/-- Settles O29: a legal word runs its command, which in phase ERROR leaves the state alone unless it is a restart
command; an illegal word is O27's. -/
theorem commandWordsDecodeInOrder : Obligations.CommandWordsDecodeInOrder := by
  intro s w rest hp s' isRestart
  refine ⟨fun i hd _ => step_of_legal hp hd, fun herr hno => ?_,
    fun herr hd => step_of_illegal_raise hp hd herr,
    fun _ i hd hno => ⟨isStream_of_not_isRestart hno, step_of_legal hp hd⟩⟩
  cases hd : decode w with
  | ok i =>
    rw [step_of_legal hp hd]
    exact exec_stream_of_error (isStream_of_not_isRestart (hno i hd)) herr
  | error e => exact step_of_illegal_ignored hp ⟨e, hd⟩ herr

end Sys2Proof.Machine
end

section
/-! PROOFS. The type-code decoder (40_typecode.md): BTEST reads one bit of TYPE (R70, R71), and the two validity bits
part on a lower-case byte 2, where VALID_RAW alone gates PARSE (R67). -/

namespace Sys2Proof.Machine

/-! ### The two validity bits -/

/-- A code of four letters is valid as text (R65). -/
theorem validText_of_letters {t : Word} (h : ∀ i : BitVec 2, isAlpha (byteOf t i) = true) : validText t = true := by
  simp only [validText, alpha, h, Bool.and_self]

/-- A lower-case byte 2 spoils VALID_RAW, whatever VALID_TEXT is (R62, R66). -/
theorem validRaw_of_bit5 {t : Word} (h : (byteOf t 2).getLsbD 5 = true) : validRaw t = false := by
  simp only [validRaw, rsvdValid, bit5_eq, h, Bool.not_true, Bool.and_false]

theorem exec_push (b : Byte) (s : State) : exec (.push b) s = .next (s.withBlock (pushBlock b s.block)) :=
  exec_eq (.push b) s

/-- In PARSE, phase TYPE, PUSH is the rule of a type byte (R96, R99). -/
theorem pushBlock_of_parse_type {b : Byte} {k : Block} (hm : k.mode = .parse) (hp : k.phase = .type) :
    pushBlock b k = pushParseType b k := by
  simp only [pushBlock, hm, hp]

/-- Of the outcomes of the fourth type byte, InvalidTypeCode is the one that VALID_RAW = 0 leads to, and no other enters
ERROR with that code (R67, R99). -/
theorem pushParseType_invalid_iff {b : Byte} {k : Block} (hf : k.fidx = 3#2) :
    (pushParseType b k).err = .invalidTypeCode ∧ (pushParseType b k).phase = .error ↔
      validRaw (pushParseType b k).type = false := by
  rcases pushParseType_cases b k with ⟨hne, -⟩ | ⟨-, hv, h⟩ | ⟨-, hv, -, -, h⟩ | ⟨-, hv, -, -, h⟩ | ⟨-, hv, -, h⟩
  · exact absurd hf hne
  · rw [h]
    exact iff_of_true ⟨rfl, rfl⟩ hv
  all_goals simp [h, hv]

/-- Settles O38: the two bits by their definitions, "Rust" by evaluation, and the gate by the outcomes of the fourth
type byte (`pushParseType_invalid_iff`). -/
theorem validityAsymmetryIsKept : Obligations.ValidityAsymmetryIsKept := by
  refine ⟨fun t hletters hlower => ⟨?_, ?_⟩, rfl, fun b s t hm hp hf h => ?_⟩
  · exact (flags_getLsbD t 8).trans (validText_of_letters hletters)
  · exact (flags_getLsbD t 9).trans (validRaw_of_bit5 hlower)
  · rw [exec_push, pushBlock_of_parse_type hm hp] at h
    cases h
    rw [flags_getLsbD]
    exact pushParseType_invalid_iff hf

/-! ### BTEST -/

/-- `bit_test` reads one bit of a byte (R70). -/
theorem bitTest_eq (b : Byte) (i : Nat) : bitTest b i = if i < 8 then b.getLsbD i else false := by
  have hbits : ∀ i < 8, ∀ b : Byte, ((b >>> i) &&& 1#8 == 1#8) = b.getLsbD i := by decide +kernel
  by_cases hi : i < 8
  · rw [bitTest, if_pos hi, if_pos hi, hbits i hi]
  · rw [bitTest, if_neg hi, if_neg hi]

/-- `bit_test` of a byte of a word, as a bit of the word (R7, R70). -/
theorem bitTest_byteOf (w : Word) (sel : BitVec 2) (i : Nat) :
    bitTest (byteOf w sel) i = if i < 8 then w.getLsbD (24 - 8 * sel.toNat + i) else false := by
  rw [bitTest_eq, byteOf_getLsbD]
  by_cases hi : i < 8 <;> simp [hi]

/-- BTEST at index 5 reads the classification bit (R59, R71). -/
theorem bitTest_five (b : Byte) : bitTest b 5 = bit5 b :=
  (bitTest_eq b 5).trans (bit5_eq b).symm

theorem exec_btest (sel : BitVec 2) (idx : BitVec 4) (s : State) : exec (.btest sel idx) s =
    .next (s.withBlock { s.block with btr := bitTest (byteOf s.block.type sel) idx.toNat }) :=
  exec_eq (.btest sel idx) s

/-- The classification bit of each byte, read back from its flag: bytes 0 to 2 are flagged when it is 0, byte 3 when it
is 1 (R60 to R63). -/
theorem bit5_byteOf_eq_flag (t : Word) (sel : BitVec 2) : bit5 (byteOf t sel) =
    if sel = 3#2 then (flags t).getLsbD 3 else !(flags t).getLsbD sel.toNat := by
  rw [flags_getLsbD, flags_getLsbD]
  rcases byteIndex_cases sel with rfl | rfl | rfl | rfl
  · exact (Bool.not_not _).symm
  · exact (Bool.not_not _).symm
  · exact (Bool.not_not _).symm
  · rfl

/-- The operands of a BTEST word stand in its fields (R49, R57). -/
theorem encode_btest_fields (sel : BitVec 2) (idx : BitVec 4) :
    (encode (.btest sel idx)).extractLsb' 0 2 = sel ∧ (encode (.btest sel idx)).extractLsb' 4 4 = idx := by
  revert sel idx; decide +kernel

/-- A word of BTEST has its operands in its fields. -/
theorem btest_fields_of_decode {w : Word} {sel : BitVec 2} {idx : BitVec 4} (h : decode w = .ok (.btest sel idx)) :
    sel = w.extractLsb' 0 2 ∧ idx = w.extractLsb' 4 4 := by
  obtain ⟨hsel, hidx⟩ := encode_btest_fields sel idx
  rw [eq_encode_of_decode h]
  exact ⟨hsel.symm, hidx.symm⟩

/-- BTEST's row holds BTEST only. -/
theorem exists_btest_of_opcodeRow {i : Instr} (h : opcodeRow i = opcodeRow (.btest 0 0)) :
    ∃ sel idx, i = .btest sel idx := by
  cases i with
  | btest sel idx => exact ⟨sel, idx, rfl⟩
  | nop | initParse | initEncode | push | endInput | emit | sreset => simp [opcodeRow] at h

/-- The words of BTEST's row are the BTEST words (R50). -/
theorem btestRow_iff {w : Word} :
    w &&& 0xFFFFFF0C#32 = 0x06000000#32 ↔ ∃ sel idx, decode w = .ok (.btest sel idx) := by
  have hrow : rowMatches w (opcodeRow (.btest 0 0)) = true ↔ w &&& 0xFFFFFF0C#32 = 0x06000000#32 := beq_iff_eq
  rw [← hrow, rowMatches_iff_decode (by decide)]
  constructor
  · rintro ⟨i, hd, hi⟩
    obtain ⟨sel, idx, rfl⟩ := exists_btest_of_opcodeRow hi
    exact ⟨sel, idx, hd⟩
  · rintro ⟨sel, idx, hd⟩
    exact ⟨_, hd, rfl⟩

/-- A word is BTEST with given operands when it is in BTEST's row and they are its fields. -/
theorem decode_eq_btest_iff {w : Word} {sel : BitVec 2} {idx : BitVec 4} : decode w = .ok (.btest sel idx) ↔
    w &&& 0xFFFFFF0C#32 = 0x06000000#32 ∧ sel = w.extractLsb' 0 2 ∧ idx = w.extractLsb' 4 4 := by
  constructor
  · intro h
    exact ⟨btestRow_iff.2 ⟨sel, idx, h⟩, btest_fields_of_decode h⟩
  · rintro ⟨hrow, rfl, rfl⟩
    obtain ⟨sel, idx, h⟩ := btestRow_iff.1 hrow
    obtain ⟨hsel, hidx⟩ := btest_fields_of_decode h
    rw [← hsel, ← hidx, h]

/-- Settles O6: the words by BTEST's row (`decode_eq_btest_iff`), the effect by `exec_btest`, and index 5 as the bit
behind each flag (`bit5_byteOf_eq_flag`). -/
theorem btestReadsOneBitOfType : Obligations.BtestReadsOneBitOfType := by
  refine ⟨fun _ _ _ => decode_eq_btest_iff, fun sel idx s => ?_, bitTest_eq, fun sel s t h => ?_⟩
  · rw [exec_btest, bitTest_byteOf]
    rfl
  · rw [exec_btest] at h
    cases h
    exact (bitTest_five _).trans (bit5_byteOf_eq_flag s.block.type sel)

end Sys2Proof.Machine
end

section
/-! PROOFS. Feeding bytes to PARSE (43_commands.md R96, R115): what a run of PUSH commands leaves of the block, field
by field of the wire image (R88). -/

namespace Sys2Proof.Machine

/-! ### Commands in a run -/

/-- PUSH's word holds its opcode and its byte (R57). -/
theorem encode_push_fields (b : Byte) : opcField (encode (.push b)) = 0x03#8 ∧ argField (encode (.push b)) = b := by
  have hopc : (b.setWidth 32).extractLsb' 24 8 = 0#8 := by
    apply BitVec.eq_of_getLsbD_eq
    intro i hi
    simp [BitVec.getLsbD_of_ge b (24 + i) (by omega)]
  have harg : (b.setWidth 32).extractLsb' 0 8 = b := by
    apply BitVec.eq_of_getLsbD_eq
    intro i hi
    simp [hi, show i < 32 by omega]
  simp [opcField, argField, encode, BitVec.extractLsb'_or, hopc, harg]

/-- Decoding an instruction's word gives the instruction back. -/
theorem decode_encode (i : Instr) : decode (encode i) = .ok i := by
  cases i with
  | push b =>
    obtain ⟨hassigned, hrsv⟩ := encode_opc_rsv (.push b)
    obtain ⟨hopc, harg⟩ := encode_push_fields b
    rw [decode_eq_decodeForm hassigned hrsv, hopc, harg]
    rfl
  | btest sel idx =>
    obtain ⟨sel', idx', hd⟩ := btestRow_iff.1 (beq_iff_eq.1 (encode_in_row (.btest sel idx)))
    obtain ⟨rfl, rfl⟩ := btest_fields_of_decode hd
    obtain ⟨hsel, hidx⟩ := encode_btest_fields sel idx
    rw [hd, hsel, hidx]
  | nop | initParse | initEncode | endInput | emit | sreset => rfl

/-- A command in the middle of a run changes the block. -/
theorem runProgram_commandOf (i : Instr) (p : List Event) (s : State) :
    runProgram (commandOf i :: p) s = runProgram p (s.withBlock (blockAfter i s.block)) := by
  rw [commandOf, runProgram_writeOf, blockWritten, decode_encode]

/-- The block after PUSH of each of the bytes in turn. -/
def pushBytes (bs : List Byte) (k : Block) : Block := bs.foldl (fun k b => pushBlock b k) k

@[simp] theorem pushBytes_nil (k : Block) : pushBytes [] k = k := rfl

@[simp] theorem pushBytes_cons (b : Byte) (bs : List Byte) (k : Block) :
    pushBytes (b :: bs) k = pushBytes bs (pushBlock b k) := rfl

theorem pushBytes_append (bs cs : List Byte) (k : Block) :
    pushBytes (bs ++ cs) k = pushBytes cs (pushBytes bs k) := List.foldl_append

theorem runProgram_push (bs : List Byte) (p : List Event) (s : State) :
    runProgram (bs.map (fun b => commandOf (.push b)) ++ p) s
      = runProgram p (s.withBlock (pushBytes bs s.block)) := by
  induction bs generalizing s with
  | nil => rfl
  | cons b bs ih =>
    rw [List.map_cons, List.cons_append, runProgram_commandOf, ih]
    rfl

/-- The parsing sequence (R115) is INIT_PARSE, then the bytes, then END. -/
theorem runProgram_parseProgram (bs : List Byte) (s : State) : runProgram (parseProgram bs) s
    = .next { s with block := endBlock (pushBytes bs (blockAfter .initParse s.block)), pending := [] } := by
  have hp : parseProgram bs
      = commandOf .initParse :: (bs.map (fun b => commandOf (.push b)) ++ [commandOf .endInput]) := by
    simp [parseProgram, assemble, expandLine]
  rw [hp, runProgram_commandOf, runProgram_push, runProgram_commandOf]
  rfl

/-! ### The fields of the wire image -/

/-- Phase ERROR ignores every byte (R130). -/
theorem pushBytes_of_error {k : Block} (hp : k.phase = .error) (bs : List Byte) : pushBytes bs k = k := by
  induction bs with
  | nil => rfl
  | cons b bs ih =>
    have hb : pushBlock b k = k := by simpa [hp] using pushBlock_cases b k
    rw [pushBytes_cons, hb, ih]

/-- A shift-in moves each byte one place up and puts the new one last (R86). -/
theorem byteOf_be32ShiftIn (acc : Word) (b : Byte) (i : BitVec 2) :
    byteOf (be32ShiftIn acc b) i = if i = 3#2 then b else byteOf acc (i + 1#2) := by
  apply BitVec.eq_of_getLsbD_eq
  intro n hn
  by_cases hi : i = 3#2
  · subst hi
    rw [if_pos rfl, byteOf_getLsbD]
    simp [be32ShiftIn, zext32, hn, show n < 32 by omega]
  · have hlt : i.toNat < 3 := by bv_omega
    have hnext : (i + 1#2).toNat = i.toNat + 1 := by bv_omega
    have hpos : 24 - 8 * i.toNat + n = 24 - 8 * (i.toNat + 1) + n + 8 := by omega
    rw [if_neg hi, byteOf_getLsbD, byteOf_getLsbD, hnext, hpos]
    simp [be32ShiftIn, zext32, hn]
    omega

/-- Four shift-ins of a word's bytes leave the word, whatever stood there (R86, R91). -/
theorem be32ShiftIn_bytes (acc v : Word) :
    be32ShiftIn (be32ShiftIn (be32ShiftIn (be32ShiftIn acc (byteOf v 0#2)) (byteOf v 1#2)) (byteOf v 2#2))
      (byteOf v 3#2) = v := by
  refine word_eq_of_bytes fun i => ?_
  rcases byteIndex_cases i with rfl | rfl | rfl | rfl <;> simp [byteOf_be32ShiftIn]

/-- Writing a word's four bytes leaves the word, whatever stood there (R91, R99). -/
theorem setByte_bytes (w v : Word) :
    setByte (setByte (setByte (setByte w 0#2 (byteOf v 0#2)) 1#2 (byteOf v 1#2)) 2#2 (byteOf v 2#2)) 3#2 (byteOf v 3#2)
      = v := by
  refine word_eq_of_bytes fun i => ?_
  rcases byteIndex_cases i with rfl | rfl | rfl | rfl <;> simp [byteOf_setByte]

section
variable {k : Block} (hm : k.mode = .parse) (hf : k.fidx = 0#2)
include hm hf

/-- The length field (R98). -/
theorem pushBytes_len (hp : k.phase = .len) (v : Word) :
    pushBytes (be32Pack v) k = { k with len := v, fidx := 0#2, phase := .type } := by
  simp [be32Pack, pushBlock, pushParseLen, advanceField, hm, hp, hf, be32ShiftIn_bytes]

/-- The type field (R99). -/
theorem pushBytes_type (hp : k.phase = .type) (t : Word) :
    pushBytes (be32Pack t) k
      = typeReceived { k with type := t, crc := (be32Pack t).foldl crcUpdate k.crc } := by
  simp [be32Pack, pushBlock, pushParseType, feedCrc, hm, hp, hf, setByte_bytes]

/-- The checksum field (R102). -/
theorem pushBytes_crc (hp : k.phase = .crc) (w : Word) :
    pushBytes (be32Pack w) k = checksumReceived { k with wcrc := w } := by
  simp [be32Pack, pushBlock, pushParseCrc, hm, hp, hf, be32ShiftIn_bytes]

end

/-- The payload field, when the bytes are as many as are still due (R100). -/
theorem pushBytes_payload {k : Block} {d : List Byte} (hm : k.mode = .parse) (hp : k.phase = .payload)
    (hd : d ≠ []) (hcount : k.cnt.toNat + d.length = k.len.toNat) :
    pushBytes d k = { k with crc := d.foldl crcUpdate k.crc, cnt := k.len, phase := .crc, fidx := 0#2 } := by
  induction d generalizing k with
  | nil => exact absurd rfl hd
  | cons b d ih =>
    have hpush : pushBlock b k = pushParsePayload b k := by simp only [pushBlock, hm, hp]
    rw [List.length_cons] at hcount
    rw [pushBytes_cons, hpush]
    rcases pushParsePayload_cases b k with ⟨hne, h⟩ | ⟨heq, h⟩ <;> rw [h]
    · have hrest : d ≠ [] := by
        rintro rfl
        exact hne (BitVec.eq_of_toNat_eq (by rw [List.length_nil] at hcount; bv_omega))
      have hpos := List.length_pos_iff.2 hrest
      exact ih hm hp hrest (by simp only; bv_omega)
    · have hlast : d = [] := List.length_eq_zero_iff.1 (by bv_omega)
      subst hlast
      simp [heq]

/-- What follows a valid type code takes a payload of the declared length, be it empty (R99 to R101). -/
theorem pushBytes_typeReceived {k : Block} {d : List Byte} (hm : k.mode = .parse) (hf : k.fidx = 0#2)
    (hc : k.cnt = 0#32) (hl : k.len.toNat = d.length) (hv : validRaw k.type = true) :
    pushBytes d (typeReceived k) = { k with crc := d.foldl crcUpdate k.crc, cnt := k.len, phase := .crc } := by
  cases d with
  | nil =>
    have hl0 : k.len = 0#32 := BitVec.eq_of_toNat_eq hl
    simp [typeReceived, leavePayload, hv, hl0, hc, hf]
  | cons b d =>
    have hl0 : k.len ≠ 0#32 := by rintro h; simp [h] at hl
    have h : typeReceived k = { k with phase := .payload } := by simp [typeReceived, hv, hl0]
    have hpay := pushBytes_payload (k := { k with phase := .payload }) (d := b :: d) hm rfl (by simp) (by simp [hc, hl])
    rw [h, hpay, ← hf]

/-! ### A whole image -/

/-- In phase ERROR, END is ignored too (R130). -/
theorem endBlock_of_error {k : Block} (hp : k.phase = .error) : endBlock k = k := by
  simpa [hp] using endBlock_cases k

section
variable {k : Block} (hm : k.mode = .parse) (hp : k.phase = .len) (hf : k.fidx = 0#2)
include hm hp hf

/-- The length and type fields of an image. -/
theorem pushBytes_header (l t : Word) :
    pushBytes (be32Pack l ++ be32Pack t) k = typeReceived { k with
      phase := .type, len := l, type := t, crc := (be32Pack t).foldl crcUpdate k.crc } := by
  have htype := pushBytes_type (k := { k with phase := .type, len := l }) hm hf rfl t
  rw [pushBytes_append, pushBytes_len hm hf hp, ← hf, htype]

/-- An image whose type code has VALID_RAW = 0 ends at its type field, whatever follows (R99). -/
theorem pushBytes_image_of_invalid {t : Word} (hv : validRaw t = false) (l : Word) (r : List Byte) :
    pushBytes (be32Pack l ++ be32Pack t ++ r) k = raise .invalidTypeCode t 0#32 { k with
      phase := .type, len := l, type := t, crc := (be32Pack t).foldl crcUpdate k.crc } := by
  rw [pushBytes_append, pushBytes_header hm hp hf, typeReceived, if_pos hv]
  exact pushBytes_of_error rfl r

/-- An image whose type code has VALID_RAW = 1, and whose payload has the declared length, comes to the comparison of
the checksums (R102). -/
theorem pushBytes_image_of_valid {t l : Word} {d : List Byte} (hv : validRaw t = true) (hc : k.cnt = 0#32)
    (hl : l.toNat = d.length) (w : Word) :
    pushBytes (be32Pack l ++ be32Pack t ++ d ++ be32Pack w) k = checksumReceived { k with
      phase := .crc, len := l, type := t, cnt := l, crc := (be32Pack t ++ d).foldl crcUpdate k.crc, wcrc := w } := by
  have hpay := pushBytes_typeReceived (d := d)
    (k := { k with phase := .type, len := l, type := t, crc := (be32Pack t).foldl crcUpdate k.crc }) hm hf hc hl hv
  rw [pushBytes_append, pushBytes_append, pushBytes_header hm hp hf, hpay, List.foldl_append]
  refine pushBytes_crc ?_ ?_ rfl w
  · exact hm
  · exact hf

end

/-- A checksum field that is not the engine's result raises ChecksumMismatch (R102). -/
theorem checksumReceived_of_ne {k : Block} (h : k.wcrc ≠ crcFinal k.crc) :
    checksumReceived k = raise .checksumMismatch k.wcrc (crcFinal k.crc) k := if_neg h

/-- A parse whose bytes lead to phase ERROR ends with what they left. -/
theorem runProgram_parseProgram_of_error {bs : List Byte} {s : State} {k : Block}
    (h : pushBytes bs (blockAfter .initParse s.block) = k) (hp : k.phase = .error) :
    runProgram (parseProgram bs) s = .next { s with block := k, pending := [] } := by
  rw [runProgram_parseProgram, h, endBlock_of_error hp]

/-- PARSE of an image whose type code has VALID_RAW = 0 ends in InvalidTypeCode (R99, R133). -/
theorem parse_invalidTypeCode {t : Word} (hv : validRaw t = false) (l : Word) (r : List Byte) (s : State) :
    ∃ u, runProgram (parseProgram (be32Pack l ++ be32Pack t ++ r)) s = .next u ∧
      u.block.phase = .error ∧ u.block.err = .invalidTypeCode ∧ u.block.erra = t := by
  have hpush := pushBytes_image_of_invalid (k := blockAfter .initParse s.block) rfl rfl rfl hv l r
  exact ⟨_, runProgram_parseProgram_of_error hpush rfl, rfl, rfl, rfl⟩

/-- PARSE of an image with a valid type code and a wrong checksum field ends in ChecksumMismatch (R102). -/
theorem parse_checksumMismatch {t w : Word} {d : List Byte} (hv : validRaw t = true) (hd : d.length < 2 ^ 32)
    (hw : w ≠ crc32 (be32Pack t ++ d)) (s : State) :
    ∃ u, runProgram (parseProgram (be32Pack (BitVec.ofNat 32 d.length) ++ be32Pack t ++ d ++ be32Pack w)) s
        = .next u ∧ u.block.phase = .error ∧ u.block.err = .checksumMismatch ∧ u.block.erra = w ∧
      u.block.errb = crc32 (be32Pack t ++ d) := by
  have hl : (BitVec.ofNat 32 d.length).toNat = d.length := (BitVec.toNat_ofNat ..).trans (Nat.mod_eq_of_lt hd)
  have hpush := pushBytes_image_of_valid (k := blockAfter .initParse s.block) rfl rfl rfl hv rfl hl w
  have hfail := hpush.trans (checksumReceived_of_ne hw)
  exact ⟨_, runProgram_parseProgram_of_error hfail rfl, rfl, rfl, rfl, rfl⟩

end Sys2Proof.Machine
end

section
/-! PROOFS. The CRC engine (41_crc32.md): its reflected form (R73, R74), its table form (R77), and the detection of a
single flipped bit (R82). -/

namespace Sys2Proof.Machine

/-! ### The reflected engine -/

theorem reverse_xor (c d : Word) : (c ^^^ d).reverse = c.reverse ^^^ d.reverse := by
  apply BitVec.eq_of_getLsbD_eq
  intro i _
  simp only [BitVec.getLsbD_reverse, BitVec.getLsbD_xor, BitVec.getMsbD_xor]

theorem reverse_ushiftRight_one (c : Word) : (c >>> 1).reverse = c.reverse <<< 1 := by
  apply BitVec.eq_of_getLsbD_eq
  intro i _
  simp only [BitVec.getLsbD_reverse, BitVec.getMsbD_ushiftRight, BitVec.getLsbD_shiftLeft, Bool.and_assoc]

theorem crcPolyReflected_eq_reverse : crcPolyReflected = crcPolyNormal.reverse := by
  have hbits : ∀ i < 32, crcPolyReflected.getLsbD i = crcPolyNormal.getMsbD i := by decide
  apply BitVec.eq_of_getLsbD_eq
  intro i hi
  rw [BitVec.getLsbD_reverse, hbits i hi]

/-- One turn of the engine on a bit-reversed register is one turn of the division with the most significant bit
first (R74). -/
theorem crcBit_reverse (c : Word) : (crcBit c).reverse
    = if c.reverse.msb then (c.reverse <<< 1) ^^^ crcPolyNormal else c.reverse <<< 1 := by
  rw [BitVec.msb_reverse, crcBit, apply_ite BitVec.reverse, reverse_xor, reverse_ushiftRight_one,
    crcPolyReflected_eq_reverse, BitVec.reverse_reverse_eq]

/-- Settles O39: the exponents bit by bit, and the engine by `crcBit_reverse`. -/
theorem crcEngineIsReflected : Obligations.CrcEngineIsReflected :=
  ⟨by decide, rfl, rfl, crcPolyReflected_eq_reverse, crcBit_reverse⟩

/-! ### The table form -/

/-- A turn on a register whose lowest bit is 0 only shifts. -/
theorem crcBit_of_even {c : Word} (h : c.getLsbD 0 = false) : crcBit c = c >>> 1 :=
  if_neg (Bool.eq_false_iff.1 h)

/-- `n` turns on a register whose `n` lowest bits are 0 only shift. -/
theorem crcBits_of_low_zero {n : Nat} {c : Word} (h : ∀ i < n, c.getLsbD i = false) : crcBits n c = c >>> n := by
  induction n generalizing c with
  | zero => exact (BitVec.ushiftRight_zero c).symm
  | succ n ih =>
    have hrest : ∀ i < n, (c >>> 1).getLsbD i = false := fun i hi => by
      rw [BitVec.getLsbD_ushiftRight]
      exact h (1 + i) (by omega)
    rw [crcBits, crcBit_of_even (h 0 n.succ_pos), ih hrest, ← BitVec.shiftRight_add, Nat.add_comm]

/-- A register is its low byte and its upper three bytes. -/
theorem low_xor_upper (x : Word) : zext32 (x.setWidth 8) ^^^ ((x >>> 8) <<< 8) = x := by
  apply BitVec.eq_of_getLsbD_eq
  intro i hi
  by_cases h : i < 8
  · simp [zext32, h, hi]
  · simp [zext32, h, hi, show 8 + (i - 8) = i by omega]

theorem upper_ushiftRight (x : Word) : ((x >>> 8) <<< 8) >>> 8 = x >>> 8 := by
  apply BitVec.eq_of_getLsbD_eq
  intro i _
  by_cases h : 8 + i < 32
  · simp [h]
  · simp [h, BitVec.getLsbD_of_ge x (8 + i) (by omega)]

/-- Eight turns take the low byte through the table and only shift the upper three. -/
theorem crcBits_eight (x : Word) : crcBits 8 x = crcTable (x.setWidth 8) ^^^ (x >>> 8) := by
  have hlow : crcBits 8 (zext32 (x.setWidth 8)) = crcTable (x.setWidth 8) := by
    rw [crcTable, crcUpdate, BitVec.zero_xor]
  have hupper : crcBits 8 ((x >>> 8) <<< 8) = x >>> 8 :=
    (crcBits_of_low_zero fun i hi => by simp [hi]).trans (upper_ushiftRight x)
  calc crcBits 8 x
      = crcBits 8 (zext32 (x.setWidth 8) ^^^ ((x >>> 8) <<< 8)) := by rw [low_xor_upper]
    _ = crcTable (x.setWidth 8) ^^^ (x >>> 8) := by rw [crcBits_xor, hlow, hupper]

/-- The byte fed to the engine does not reach the upper three bytes. -/
theorem xor_zext32_ushiftRight (c : Word) (b : Byte) : (c ^^^ zext32 b) >>> 8 = c >>> 8 := by
  apply BitVec.eq_of_getLsbD_eq
  intro i _
  simp [zext32]

/-- The table form (R77). -/
theorem crcUpdate_eq_table (c : Word) (b : Byte) :
    crcUpdate c b = crcTable ((c ^^^ zext32 b).setWidth 8) ^^^ (c >>> 8) := by
  rw [crcUpdate, crcBits_eight, xor_zext32_ushiftRight]

/-- Settles O40: the table form by linearity (`crcUpdate_eq_table`), the five entries by evaluation. -/
theorem crcTableFormAgrees : Obligations.CrcTableFormAgrees :=
  ⟨crcUpdate_eq_table, by decide⟩

/-! ### A flipped bit -/

theorem xor_bit_ne {j : Nat} (hj : j < 8) (b : Byte) : b ^^^ (1#8 <<< j) ≠ b := by
  have hbit : ∀ j < 8, 1#8 <<< j ≠ 0#8 := by decide
  intro h
  exact hbit j hj ((BitVec.xor_right_inj b).1 (h.trans BitVec.xor_zero.symm))

/-- Another byte in one place gives another checksum. -/
theorem crc32_set_ne {l : List Byte} {i : Nat} {b : Byte} (hi : i < l.length) (hb : b ≠ l[i]) :
    crc32 (l.set i b) ≠ crc32 l := by
  have hl : l.take i ++ l[i] :: l.drop (i + 1) = l := by
    rw [← List.drop_eq_getElem_cons hi, List.take_append_drop]
  have h := crc32_ne_of_one_byte (l.take i) (l.drop (i + 1)) hb
  rwa [hl, ← List.set_eq_take_cons_drop b hi] at h

/-- One flipped bit gives another checksum (R82). -/
theorem crc32_flip_ne {l : List Byte} {i j : Nat} (hi : i < l.length) (hj : j < 8) :
    crc32 (l.set i (l.getD i 0#8 ^^^ (1#8 <<< j))) ≠ crc32 l := by
  rw [List.getD_eq_getElem l _ hi]
  exact crc32_set_ne hi (xor_bit_ne hj _)

/-- Settles O59: the flip changes the checksum (`crc32_flip_ne`), so PARSE meets a wrong checksum field unless it stops
at the type code first. -/
theorem anySingleBitFlipIsDetected : Obligations.AnySingleBitFlipIsDetected := by
  intro ty ty' d d' i j s hd hd' hi hj hflip
  have hi' : i < (be32Pack ty ++ d).length := by
    rw [List.length_append]
    exact hi
  have hne : crc32 (be32Pack ty' ++ d') ≠ crc32 (be32Pack ty ++ d) := hflip ▸ crc32_flip_ne hi' hj
  refine ⟨hne, ?_⟩
  rw [← hd'] at hd ⊢
  cases hv : validRaw ty' with
  | true =>
    obtain ⟨u, hrun, hp, herr, ha, hb⟩ := parse_checksumMismatch hv hd hne.symm s
    exact ⟨u, hrun, hp, fun _ => ⟨herr, ha, hb⟩, nofun⟩
  | false =>
    obtain ⟨u, hrun, hp, herr, ha⟩ := parse_invalidTypeCode hv (BitVec.ofNat 32 d'.length)
      (d' ++ be32Pack (crc32 (be32Pack ty ++ d))) s
    rw [← List.append_assoc] at hrun
    exact ⟨u, hrun, hp, nofun, fun _ => ⟨herr, ha⟩⟩

end Sys2Proof.Machine
end

section
/-! PROOFS. The packer (42_packer.md): packing and unpacking are inverse (R84 to R86), and what four EMITs or four
PUSHes make of a field (R90, R91). -/

namespace Sys2Proof.Machine

/-! ### The pure functions -/

/-- Four shift-ins leave nothing of what the accumulator held (R86). -/
theorem foldl_be32ShiftIn (acc : Word) (c0 c1 c2 c3 : Byte) :
    [c0, c1, c2, c3].foldl be32ShiftIn acc = be32Unpack c0 c1 c2 c3 := by
  have hgone : acc <<< 32 = 0#32 := BitVec.shiftLeft_eq_zero (Nat.le_refl 32)
  simp [be32ShiftIn, be32Unpack, BitVec.shiftLeft_or_distrib, ← BitVec.shiftLeft_add, hgone]

/-- The bytes of an unpacked word are the bytes it was unpacked from (R85). -/
theorem be32Pack_be32Unpack (c0 c1 c2 c3 : Byte) : be32Pack (be32Unpack c0 c1 c2 c3) = [c0, c1, c2, c3] := by
  rw [← foldl_be32ShiftIn 0#32]
  simp [be32Pack, byteOf_be32ShiftIn]

/-- Settles O41: unpacking is four shift-ins (`foldl_be32ShiftIn`), and what those do to the bytes of a word is
known (`byteOf_be32ShiftIn`, `be32ShiftIn_bytes`). -/
theorem packAndUnpackAreInverse : Obligations.PackAndUnpackAreInverse := by
  refine ⟨fun v => rfl, fun v => ?_, be32Pack_be32Unpack, foldl_be32ShiftIn⟩
  rw [← foldl_be32ShiftIn 0#32]
  exact be32ShiftIn_bytes 0#32 v

/-! ### A run of `EMIT; RD OUT` -/

/-- The values that `n` pairs `EMIT; RD OUT` read. -/
def emitReads : Nat → Block → List Word
  | 0, _ => []
  | n + 1, k => outWord (emitBlock k) :: emitReads n (emitBlock k)

/-- One pair in the middle of a run. -/
theorem runProgram_emitRead (p : List Event) (s : State) : runProgram (emitRead ++ p) s
    = runProgram p { s with block := emitBlock s.block, reads := s.reads ++ [outWord (emitBlock s.block)] } := by
  rw [emitRead, List.cons_append, runProgram_commandOf, List.cons_append, runProgram_readOf]
  rfl

/-- `n` pairs in the middle of a run. -/
theorem runProgram_emitReads (n : Nat) (p : List Event) (s : State) :
    runProgram ((List.replicate n emitRead).flatten ++ p) s
      = runProgram p { s with block := emitBlock^[n] s.block, reads := s.reads ++ emitReads n s.block } := by
  induction n generalizing s with
  | zero => simp [emitReads]
  | succ n ih =>
    rw [List.replicate_succ, List.flatten_cons, List.append_assoc, runProgram_emitRead, ih]
    simp [emitReads]

/-- `EMITRD n` alone. -/
theorem runProgram_emitrd (n : Nat) (s : State) : runProgram (assemble [.emitrd n]) s
    = .next { s with block := emitBlock^[n] s.block, reads := s.reads ++ emitReads n s.block, pending := [] } := by
  have hp : assemble [.emitrd n] = (List.replicate n emitRead).flatten ++ [] := by simp [assemble, expandLine]
  rw [hp, runProgram_emitReads, runProgram_nil]

/-- OUT with V = 1 (R23). -/
theorem outWord_of_outv {k : Block} (h : k.outv = true) : outWord k = 0x100#32 ||| k.out.setWidth 32 := by
  rw [outWord, h, BitVec.append_def, BitVec.setWidth_or]
  rfl

/-- Where EMIT sends byte `fidx` of the word `w`, four of them send `w`, most significant byte first, and end the
field. -/
theorem emit_field {k : Block} {w : Word} {follows : Phase} (hf : k.fidx = 0#2)
    (hemit : ∀ i o v, emitBlock { k with fidx := i, out := o, outv := v }
      = advanceField follows { k with fidx := i, out := byteOf w i, outv := true }) :
    emitBlock^[4] k = { k with fidx := 0#2, phase := follows, out := byteOf w 3#2, outv := true } ∧
    emitReads 4 k = (be32Pack w).map fun b => 0x100#32 ||| b.setWidth 32 := by
  have hfirst : emitBlock k = { k with fidx := 1#2, out := byteOf w 0#2, outv := true } :=
    (hemit k.fidx k.out k.outv).trans (by simp [advanceField, hf])
  constructor <;> simp [emitReads, be32Pack, hfirst, hemit, advanceField, outWord_of_outv]

section
variable {k : Block} (hm : k.mode = .encode) (hf : k.fidx = 0#2)
include hm hf

/-- The length field (R90, R108). -/
theorem emit_len (hp : k.phase = .len) :
    emitBlock^[4] k = { k with fidx := 0#2, phase := .type, out := byteOf k.len 3#2, outv := true } ∧
    emitReads 4 k = (be32Pack k.len).map fun b => 0x100#32 ||| b.setWidth 32 :=
  emit_field hf fun i o v => by simp only [emitBlock, hm, hp, emitLen, produce]

/-- The checksum field (R90, R110). -/
theorem emit_crc (hp : k.phase = .crc) :
    emitBlock^[4] k = { k with fidx := 0#2, phase := .done, out := byteOf (crcFinal k.crc) 3#2, outv := true } ∧
    emitReads 4 k = (be32Pack (crcFinal k.crc)).map fun b => 0x100#32 ||| b.setWidth 32 :=
  emit_field hf fun i o v => by simp only [emitBlock, hm, hp, emitCrc, produce]

end

/-! ### PUSH32 -/

/-- `PUSH32 v` alone. -/
theorem runProgram_push32 (v : Word) (s : State) : runProgram (assemble [.push32 v]) s
    = .next { s with block := pushBytes (be32Pack v) s.block, pending := [] } := by
  have hp : assemble [.push32 v] = (be32Pack v).map (fun b => commandOf (.push b)) ++ [] := by
    simp [assemble, expandLine]
  rw [hp, runProgram_push]
  rfl

/-- The comparison of the checksums leaves both and decides the phase (R102). -/
theorem checksumReceived_spec (k : Block) :
    (checksumReceived k).wcrc = k.wcrc ∧ (checksumReceived k).crc = k.crc ∧
      (checksumReceived k).phase = if k.wcrc = crcFinal k.crc then .done else .error := by
  by_cases h : k.wcrc = crcFinal k.crc <;> simp [checksumReceived, h]

/-- Settles O54: a field of ENCODE by `emit_len` and `emit_crc`, one of PARSE by `pushBytes_len` and
`pushBytes_crc`. -/
theorem fourBytesMakeAField : Obligations.FourBytesMakeAField := by
  refine ⟨fun s hm hp hf => ?_, fun s hm hp hf => ?_, fun s v hm hp hf => ?_, fun s v hm hp hf => ?_⟩
  · obtain ⟨hblock, hreads⟩ := emit_len hm hf hp
    exact ⟨_, runProgram_emitrd 4 s, by rw [hblock], by rw [hreads]⟩
  · obtain ⟨hblock, hreads⟩ := emit_crc hm hf hp
    exact ⟨_, runProgram_emitrd 4 s, by rw [hblock], by rw [hreads]⟩
  · have hrun := runProgram_push32 v s
    rw [pushBytes_len hm hf hp] at hrun
    exact ⟨_, hrun, rfl, rfl, rfl⟩
  · have hrun := runProgram_push32 v s
    rw [pushBytes_crc hm hf hp] at hrun
    exact ⟨_, hrun, checksumReceived_spec { s.block with wcrc := v }⟩

end Sys2Proof.Machine
end

section
/-! PROOFS. The commands one by one (43_commands.md sections 2 to 6): the block that NOP, the restarts, PUSH, END and
EMIT leave in each mode and phase (R93 to R112). -/

namespace Sys2Proof.Machine

/-! ### NOP and the restarts -/

/-- Of the words with OPC 0x00 only NOP's is legal (R93). -/
theorem exists_decode_error_of_opcode_zero {w : Word} (hopc : opcField w = 0x00#8) (hw : w ≠ 0#32) :
    ∃ e, decode w = .error e := by
  by_cases hrsv : rsvField w = 0#16
  · have harg : argField w ≠ 0x00#8 := fun harg => hw (word_eq_of_fields hopc hrsv harg)
    exact decode_isError.2 (.inr (.inr (.inl ⟨by simp [hopc], harg⟩)))
  · exact decode_isError.2 (.inr (.inl hrsv))

/-- Settles O3: NOP's meaning is to change nothing, and its word is the only legal one with OPC 0x00. -/
theorem nopChangesNothing : Obligations.NopChangesNothing :=
  ⟨rfl, fun _ => rfl, fun _ => exists_decode_error_of_opcode_zero, fun _ _ hp => step_of_legal (i := .nop) hp rfl⟩

/-- The CRC of nothing (R75). -/
theorem crcFinal_crcInit : crcFinal crcInit = 0#32 := by decide

/-- FLAGS of an empty type code: three classification bits, each 1 for a 0 bit of TYPE (R69). -/
theorem flags_zero : flags 0#32 = 7#32 := by decide

/-- STATUS of an operation just started: its mode, and phase LEN (R18, R94, R95). -/
theorem statusWord_restart (m : Mode) {k : Block} (hbtr : k.btr = false) :
    statusWord (restart m k) = (modeCode m ++ phaseCode .len).setWidth 32 := by
  simp only [statusWord, restart_phase, restart_mode, restart_err, restart_fidx, restart_ephase, restart_btr, hbtr]
  cases m <;> decide

theorem statusWord_reset : statusWord Block.reset = 0#32 := by decide

/-- Settles O2: SRESET by its meaning, the hardware reset and the access that overlaps it by the step that takes
them. -/
theorem bothResetsGiveTheResetState : Obligations.BothResetsGiveTheResetState := by
  refine ⟨rfl, fun _ => rfl, fun s t h => ?_, fun s rest => ⟨step_cons, fun _ => step_cons⟩⟩
  have ht : t = s.withBlock Block.reset := (Host.Outcome.next.inj h).symm
  subst ht
  exact ⟨statusWord_reset, crcFinal_crcInit, flags_zero⟩

/-- Settles O4: INIT_PARSE writes constants, and BTR is the only element that STATUS still shows. -/
theorem initParseStartsAParse : Obligations.InitParseStartsAParse := by
  refine ⟨rfl, fun s => ⟨rfl, fun t h => ?_⟩⟩
  have ht := (Host.Outcome.next.inj h).symm
  subst ht
  exact ⟨flags_zero, statusWord_restart .parse⟩

/-- Settles O5: INIT_ENCODE writes constants beside LEN and TYPE, and BTR is the only element that STATUS still
shows. -/
theorem initEncodeKeepsTheChunk : Obligations.InitEncodeKeepsTheChunk := by
  refine ⟨rfl, fun s => ⟨rfl, fun t h hbtr => ?_⟩⟩
  have ht := (Host.Outcome.next.inj h).symm
  subst ht
  exact statusWord_restart .encode hbtr

/-! ### A field byte -/

/-- The end of a field byte as one update. -/
theorem advanceField_eq (follows : Phase) (k : Block) : advanceField follows k = { k with
    fidx := if k.fidx = 3#2 then 0#2 else k.fidx + 1#2
    phase := if k.fidx = 3#2 then follows else k.phase } := by
  rcases advanceField_cases follows k with ⟨hf, h⟩ | ⟨hf, h⟩ <;> simp [h, hf]

/-! ### PUSH -/

/-- PUSH is refused in mode NONE and, in ENCODE, outside the payload (R97, R105). -/
theorem pushBlock_of_refused {b : Byte} {k : Block}
    (h : (k.mode = .none ∧ k.phase = .idle) ∨ (k.mode = .encode ∧ k.phase ∈ [Phase.len, .type, .crc, .done])) :
    pushBlock b k = refuseCommand (.push b) k := by
  rcases h with ⟨hm, hp⟩ | ⟨hm, hp⟩
  · simp only [pushBlock, hm, hp]
  · simp only [List.mem_cons, List.not_mem_nil, or_false] at hp
    rcases hp with hp | hp | hp | hp <;> simp only [pushBlock, hm, hp]

/-- Settles O7: PUSH is refused, so error entry is all it does. -/
theorem pushWithNoOperationIsRefused : Obligations.PushWithNoOperationIsRefused := by
  intro b s hm hp
  rw [exec_push, pushBlock_of_refused (.inl ⟨hm, hp⟩), ← hp]
  rfl

/-- Settles O14: PUSH is refused, so error entry is all it does. -/
theorem pushOutsideThePayloadIsRefused : Obligations.PushOutsideThePayloadIsRefused := by
  intro b s hm hp
  rw [exec_push, pushBlock_of_refused (.inr ⟨hm, hp⟩)]
  rfl

/-- Settles O8: the byte is shifted in, and the field goes on (`advanceField_eq`). -/
theorem pushShiftsALengthByteIn : Obligations.PushShiftsALengthByteIn := by
  intro b s hm hp
  have hpush : pushBlock b s.block = pushParseLen b s.block := by simp only [pushBlock, hm, hp]
  rw [exec_push, hpush, pushParseLen, advanceField_eq, ← hp]
  rfl

/-- Settles O9: the five outcomes of a type byte (`pushParseType_cases`), each excluded by the conditions of the
others. -/
theorem pushTakesATypeByte : Obligations.PushTakesATypeByte := by
  intro b s hm hp ty c
  have hbytes (j : BitVec 2) : byteOf ty j = if j = s.block.fidx then b else byteOf s.block.type j :=
    byteOf_setByte _ _ _ _
  rw [exec_push, pushBlock_of_parse_type hm hp]
  refine ⟨hbytes, ?_⟩
  rcases pushParseType_cases b s.block with ⟨hf, h⟩ | ⟨hf, hv, h⟩ | ⟨hf, hv, hl, hc, h⟩ | ⟨hf, hv, hl, hc, h⟩ |
    ⟨hf, hv, hl, h⟩ <;> rw [h]
  · exact ⟨fun _ => rfl, fun hf' => absurd hf' hf, fun hf' => absurd hf' hf, fun hf' => absurd hf' hf,
      fun hf' => absurd hf' hf⟩
  · have hinvalid : validRaw ty ≠ true := Bool.eq_false_iff.1 hv
    exact ⟨absurd hf, fun _ _ => by rw [← hp]; rfl, fun _ hv' => absurd hv' hinvalid,
      fun _ hv' => absurd hv' hinvalid, fun _ hv' => absurd hv' hinvalid⟩
  · have hvalid : validRaw ty ≠ false := (Bool.ne_false_iff).2 hv
    exact ⟨absurd hf, fun _ hv' => absurd hv' hvalid, fun _ _ hl' => absurd hl hl', fun _ _ _ _ => rfl,
      fun _ _ _ hc' => absurd (hc.trans hl) hc'⟩
  · have hvalid : validRaw ty ≠ false := (Bool.ne_false_iff).2 hv
    exact ⟨absurd hf, fun _ hv' => absurd hv' hvalid, fun _ _ hl' => absurd hl hl',
      fun _ _ _ hc' => absurd (hc'.trans hl.symm) hc, fun _ _ _ _ => by rw [← hp]; rfl⟩
  · have hvalid : validRaw ty ≠ false := (Bool.ne_false_iff).2 hv
    exact ⟨absurd hf, fun _ hv' => absurd hv' hvalid, fun _ _ _ => rfl, fun _ _ hl' => absurd hl' hl,
      fun _ _ hl' => absurd hl' hl⟩

/-- Settles O10: the byte is fed and counted, and the last one leaves the payload (`pushParsePayload_cases`). -/
theorem pushTakesAPayloadByte : Obligations.PushTakesAPayloadByte := by
  intro b s hm hp
  have hpush : pushBlock b s.block = pushParsePayload b s.block := by simp only [pushBlock, hm, hp]
  rw [exec_push, hpush]
  rcases pushParsePayload_cases b s.block with ⟨hc, h⟩ | ⟨hc, h⟩ <;> rw [h]
  · exact ⟨fun _ => rfl, fun heq => absurd heq hc⟩
  · exact ⟨fun hne => absurd hc hne, fun _ => rfl⟩

/-- Settles O11: the three outcomes of a checksum byte (`pushParseCrc_cases`). -/
theorem pushTakesAChecksumByte : Obligations.PushTakesAChecksumByte := by
  intro b s hm hp w computed
  have hpush : pushBlock b s.block = pushParseCrc b s.block := by simp only [pushBlock, hm, hp]
  rw [exec_push, hpush]
  rcases pushParseCrc_cases b s.block with ⟨hf, h⟩ | ⟨hf, hw, h⟩ | ⟨hf, hw, h⟩ <;> rw [h]
  · exact ⟨fun _ => rfl, fun hf' => absurd hf' hf, fun hf' => absurd hf' hf⟩
  · exact ⟨fun hf' => absurd hf hf', fun _ _ => rfl, fun _ hne => absurd hw hne⟩
  · exact ⟨fun hf' => absurd hf hf', fun _ heq => absurd heq hw, fun _ _ => by rw [← hp]; rfl⟩

/-- PUSH after a parsed chunk (R103). -/
theorem pushBlock_of_parse_done {b : Byte} {k : Block} (hm : k.mode = .parse) (hp : k.phase = .done) :
    pushBlock b k = k := by
  simp only [pushBlock, hm, hp]

/-- Settles O12: PUSH's rule in DONE is to leave the block. -/
theorem pushAfterAParsedChunkIsIgnored : Obligations.PushAfterAParsedChunkIsIgnored := by
  intro b s hm hp
  rw [exec_push, pushBlock_of_parse_done hm hp, withBlock_self]

/-- In ENCODE, phase PAYLOAD, PUSH echoes its byte (R104). -/
theorem pushBlock_of_encode_payload {b : Byte} {k : Block} (hm : k.mode = .encode) (hp : k.phase = .payload) :
    pushBlock b k = { k with
      crc := crcUpdate k.crc b, cnt := k.cnt + 1#32, out := b, outv := true
      phase := if k.cnt + 1#32 = k.len then .crc else .payload
      fidx := if k.cnt + 1#32 = k.len then 0#2 else k.fidx } := by
  have hpush : pushBlock b k = pushEncodePayload b k := by simp only [pushBlock, hm, hp]
  rw [hpush]
  rcases pushEncodePayload_cases b k with ⟨hc, h⟩ | ⟨hc, h⟩ <;> simp [h, hc, ← hp]

/-- Settles O13: the block by `pushBlock_of_encode_payload`. -/
theorem pushEchoesAPayloadByte : Obligations.PushEchoesAPayloadByte := by
  intro b s hm hp
  rw [exec_push, pushBlock_of_encode_payload hm hp]
  rfl

/-! ### END -/

theorem exec_endInput (s : State) : exec .endInput s = .next (s.withBlock (endBlock s.block)) := exec_eq .endInput s

/-- In PARSE, END before DONE reports a short input (R106). -/
theorem endBlock_of_short {k : Block} (hm : k.mode = .parse) (hp : k.phase ∈ [Phase.len, .type, .payload, .crc]) :
    endBlock k = raise .truncatedInput 0#32 0#32 k := by
  simp only [List.mem_cons, List.not_mem_nil, or_false] at hp
  rcases hp with hp | hp | hp | hp <;> simp only [endBlock, hm, hp]

/-- END after a complete chunk changes nothing (R106). -/
theorem endBlock_of_done {k : Block} (hm : k.mode = .parse ∨ k.mode = .encode) (hp : k.phase = .done) :
    endBlock k = k := by
  rcases hm with hm | hm <;> simp only [endBlock, hm, hp]

/-- END is refused in mode NONE, and in ENCODE before DONE (R106). -/
theorem endBlock_of_refused {k : Block} (h : (k.mode = .none ∧ k.phase ≠ .error) ∨
    (k.mode = .encode ∧ k.phase ≠ .done ∧ k.phase ≠ .error)) : endBlock k = refuseCommand .endInput k := by
  rcases h with ⟨hm, hp⟩ | ⟨hm, hdone, herr⟩
  · cases hphase : k.phase <;> simp_all [endBlock]
  · cases hphase : k.phase <;> simp_all [endBlock]

/-- Settles O15: END's three branches. -/
theorem endReportsAShortInput : Obligations.EndReportsAShortInput := by
  refine ⟨rfl, fun s => ?_⟩
  rw [exec_endInput]
  refine ⟨fun hm hp => ?_, fun hm hp => ?_, fun h => ?_⟩
  · rw [endBlock_of_short hm hp]
    rfl
  · rw [endBlock_of_done hm hp, withBlock_self]
  · rw [endBlock_of_refused h]
    rfl

/-! ### EMIT -/

theorem exec_emit (s : State) : exec .emit s = .next (s.withBlock (emitBlock s.block)) := exec_eq .emit s

/-- EMIT is refused outside ENCODE (R107). -/
theorem emitBlock_of_refused {k : Block} (hm : k.mode = .none ∨ k.mode = .parse) (hp : k.phase ≠ .error) :
    emitBlock k = refuseCommand .emit k := by
  rcases emitBlock_cases k with ⟨hp', -⟩ | ⟨hm', -⟩ | ⟨hm', -⟩ | ⟨hm', -⟩ | ⟨hm', -⟩ | ⟨-, h⟩
  · exact absurd hp' hp
  · simp [hm'] at hm
  · simp [hm'] at hm
  · simp [hm'] at hm
  · simp [hm'] at hm
  · exact h

/-- Settles O16: EMIT is refused, so error entry is all it does. -/
theorem emitOutsideEncodeIsRefused : Obligations.EmitOutsideEncodeIsRefused := by
  refine ⟨rfl, fun s hm hp => ?_⟩
  rw [exec_emit, emitBlock_of_refused hm hp]
  rfl

/-- Settles O17: the byte is produced, and the field goes on (`advanceField_eq`). -/
theorem emitGivesALengthByte : Obligations.EmitGivesALengthByte := by
  intro s hm hp
  have hemit : emitBlock s.block = emitLen s.block := by simp only [emitBlock, hm, hp]
  rw [exec_emit, hemit, emitLen, advanceField_eq, ← hp]
  rfl

/-- In ENCODE, phase TYPE, EMIT is the rule of a type byte (R107, R109). -/
theorem emitBlock_of_type {k : Block} (hm : k.mode = .encode) (hp : k.phase = .type) : emitBlock k = emitType k := by
  simp only [emitBlock, hm, hp]

/-- Settles O18: the byte is produced and fed, and the field goes on (`advanceField_eq`). -/
theorem emitGivesATypeByte : Obligations.EmitGivesATypeByte := by
  intro s hm hp b
  rw [exec_emit, emitBlock_of_type hm hp, emitType, advanceField_eq, ← hp]
  rfl

/-- Settles O19: the byte is produced, and the field goes on (`advanceField_eq`). -/
theorem emitGivesAChecksumByte : Obligations.EmitGivesAChecksumByte := by
  intro s hm hp
  have hemit : emitBlock s.block = emitCrc s.block := by simp only [emitBlock, hm, hp]
  rw [exec_emit, hemit, emitCrc, advanceField_eq, ← hp]
  rfl

/-- Settles O20: in both phases EMIT's rule is that no byte is due. -/
theorem emitWithNoByteDueClearsOut : Obligations.EmitWithNoByteDueClearsOut := by
  intro s hm hp
  have hemit : emitBlock s.block = emitNothing s.block := by
    rcases hp with hp | hp <;> simp only [emitBlock, hm, hp]
  rw [exec_emit, hemit]
  rfl

end Sys2Proof.Machine
end

section
/-! PROOFS. What every step keeps of the sequencer (43_commands.md section 3, R96, R101, R117): the reachable pairs of
mode and phase, the errors that are never raised, and the moves of the phase. -/

namespace Sys2Proof.Machine

/-! ### The reachable pairs -/

/-- The table of R96: mode NONE goes with phase IDLE and with no other phase, ERROR aside. -/
theorem pairReachable_iff {k : Block} :
    k.pairReachable = true ↔ k.phase = .error ∨ (k.mode = .none ↔ k.phase = .idle) := by
  cases hm : k.mode <;> cases hp : k.phase <;> simp [Block.pairReachable, hm, hp]

/-- A running or finished operation makes a reachable pair. -/
theorem pairReachable_of_active {k : Block} (hm : k.mode ≠ .none) (hp : k.phase ≠ .idle) : k.pairReachable = true :=
  pairReachable_iff.2 (.inr (iff_of_false hm hp))

theorem pairReachable_of_error {k : Block} (hp : k.phase = .error) : k.pairReachable = true :=
  pairReachable_iff.2 (.inl hp)

/-- A move within an operation stays in it, error entry is always a reachable pair, and the restarts begin at one. -/
theorem move_keeps_pairReachable {i : Instr} {k k' : Block} (h : Move i k k') (hk : k.pairReachable = true) :
    k'.pairReachable = true := by
  cases h with
  | nop | ignored | ignoredDone | btest => exact hk
  | initParse | initEncode | sreset => rfl
  | refused | typeInvalid | typeMismatch | crcMismatch | truncated => exact pairReachable_of_error rfl
  | lenByte _ _ hm hp | lenLast _ _ hm hp | typeByte _ _ hm hp | typeEmpty _ _ hm hp | typeLast _ _ hm hp
  | payloadByte _ _ hm hp | payloadLast _ _ hm hp | crcByte _ _ hm hp | crcMatch _ _ hm hp
  | echoByte _ _ hm hp | echoLast _ _ hm hp
  | emitLenByte _ hm hp | emitLenLast _ hm hp | emitTypeByte _ hm hp | emitTypeEmpty _ hm hp
  | emitTypeLast _ hm hp | emitCrcByte _ hm hp | emitCrcLast _ hm hp =>
    exact pairReachable_of_active (by simp [hm]) (by simp [hp])
  | emitNone => exact hk

theorem eventMove_keeps_pairReachable (e : Event) (k k' : Block) (h : EventMove e k k')
    (hk : k.pairReachable = true) : k'.pairReachable = true := by
  cases h with
  | command _ _ _ _ _ hmove => exact move_keeps_pairReachable hmove hk
  | illegal | lenRefused | typeRefused => exact pairReachable_of_error rfl
  | hardReset => rfl
  | none | illegalIgnored | lenWritten | typeWritten => exact hk

/-- Settles O49: `step_keeps` over the moves of every event. -/
theorem stepKeepsTheReachablePairs : Obligations.StepKeepsTheReachablePairs :=
  ⟨rfl, fun _ _ => step_keeps eventMove_keeps_pairReachable⟩

/-! ### The errors that are never raised -/

/-- Of the commands' moves only one raises LengthMismatch, and it needs a count that R15 (f) excludes; none raises
WrongLength or InvalidText. -/
theorem move_err {i : Instr} {k k' : Block} (h : Move i k k') :
    (k.Inv → k'.err = .lengthMismatch → k.err = .lengthMismatch) ∧
    (k'.err = .wrongLength → k.err = .wrongLength) ∧ (k'.err = .invalidText → k.err = .invalidText) := by
  cases h with
  | initParse | initEncode | sreset => exact ⟨fun _ => nofun, nofun, nofun⟩
  | refused | typeInvalid | crcMismatch | truncated => exact ⟨fun _ => nofun, nofun, nofun⟩
  | typeMismatch b k _ hp _ _ hl hc =>
    refine ⟨fun hk => ?_, nofun, nofun⟩
    exact absurd ((hk.cnt_zero (.inr hp)).trans hl.symm) hc
  | _ => exact ⟨fun _ => id, id, id⟩

/-- The same of every event. -/
theorem eventMove_err {e : Event} {k k' : Block} (h : EventMove e k k') :
    (k.Inv → k'.err = .lengthMismatch → k.err = .lengthMismatch) ∧
    (k'.err = .wrongLength → k.err = .wrongLength) ∧ (k'.err = .invalidText → k.err = .invalidText) := by
  cases h with
  | command _ _ _ _ _ hmove => exact move_err hmove
  | illegal | lenRefused | typeRefused | hardReset => exact ⟨fun _ => nofun, nofun, nofun⟩
  | _ => exact ⟨fun _ => id, id, id⟩

/-- Settles O50: `eventMove_err` of the event the step takes. -/
theorem unreachableErrorsAreNeverRaised : Obligations.UnreachableErrorsAreNeverRaised := by
  intro s t h
  cases hp : s.pending with
  | nil =>
    rw [step_nil hp] at h
    cases h
    exact ⟨fun _ => id, id, id⟩
  | cons e rest => exact eventMove_err (eventMove_of_step hp h)

/-! ### The moves of the phase -/

/-- Where a command leaves another phase, it goes on along the wire image, raises an error, or is a restart (R117). -/
theorem move_phase {i : Instr} {k k' : Block} (h : Move i k k') (hne : k'.phase ≠ k.phase) :
    (k.phase, k'.phase) ∈ [(Phase.len, Phase.type), (.payload, .crc), (.crc, .done)] ∨
    (k.phase = .type ∧ k'.phase = .payload ∧ k.len ≠ 0#32) ∨
    (k.phase = .type ∧ k'.phase = .crc ∧ k.len = 0#32) ∨
    (k.phase ≠ .error ∧ k'.phase = .error) ∨
    (k'.phase = .len ∧ (i = .initParse ∨ i = .initEncode)) ∨ (k'.phase = .idle ∧ i = .sreset) := by
  cases h with
  | initParse | initEncode => simp
  | sreset => simp [Block.reset]
  | refused _ _ _ hp => simp [refuseCommand, hp]
  | truncated _ _ hp => rcases hp with hp | hp | hp | hp <;> simp [hp]
  | typeInvalid _ _ _ hp | typeMismatch _ _ _ hp | crcMismatch _ _ _ hp => simp [hp]
  | lenLast _ _ _ hp | payloadLast _ _ _ hp | crcMatch _ _ _ hp | echoLast _ _ _ hp
  | emitLenLast _ _ hp | emitCrcLast _ _ hp => simp [hp]
  | typeEmpty _ _ _ hp _ _ hl | typeLast _ _ _ hp _ _ hl | emitTypeEmpty _ _ hp _ hl
  | emitTypeLast _ _ hp _ hl => simp [hp, hl]
  | _ => exact absurd rfl hne

theorem phase_ne_error_of_not_quiescent {p : Phase} (h : quiescent p = false) : p ≠ .error := by
  rintro rfl
  cases h

/-- Settles O52: `move_phase` for a command; of the other events only error entry and the hardware reset leave another
phase. -/
theorem phasesMoveAlongTheWireImage : Obligations.PhasesMoveAlongTheWireImage := by
  intro e rest s t hp h hne
  have hmove := eventMove_of_step hp h
  generalize s.block = k, t.block = k' at hmove hne ⊢
  cases hmove with
  | command w i _ _ hd hmove =>
    have he : writeOf .cmd w = commandOf i := congrArg (writeOf .cmd) (eq_encode_of_decode hd)
    rw [he]
    rcases move_phase hmove hne with hon | hin | hover | herr | ⟨hlen, hi⟩ | ⟨hidle, hi⟩
    · exact .inl hon
    · exact .inr (.inl hin)
    · exact .inr (.inr (.inl hover))
    · exact .inr (.inr (.inr (.inl herr)))
    · have hi' := hi.imp (congrArg commandOf) (congrArg commandOf)
      exact .inr (.inr (.inr (.inr (.inl ⟨hlen, hi'⟩))))
    · exact .inr (.inr (.inr (.inr (.inr ⟨hidle, .inl (congrArg commandOf hi)⟩))))
  | illegal _ _ _ _ hp => exact .inr (.inr (.inr (.inl ⟨hp, rfl⟩)))
  | lenRefused _ _ hq | typeRefused _ _ hq =>
    exact .inr (.inr (.inr (.inl ⟨phase_ne_error_of_not_quiescent hq, rfl⟩)))
  | hardReset => exact .inr (.inr (.inr (.inr (.inr ⟨rfl, .inr rfl⟩))))
  | none | illegalIgnored | lenWritten | typeWritten => exact absurd rfl hne

end Sys2Proof.Machine
end

section
/-! PROOFS. The parsing sequence against `parse_ref` (43_commands.md R92, R115; 60_exceptions.md R133): the buffers that
end before a result, those whose type code is invalid, and those that hold a whole image. -/

namespace Sys2Proof.Machine

/-! ### The fields of a buffer -/

theorem be32Unpack_bytes (v : Word) : be32Unpack (byteOf v 0) (byteOf v 1) (byteOf v 2) (byteOf v 3) = v :=
  (foldl_be32ShiftIn 0#32 _ _ _ _).symm.trans (be32ShiftIn_bytes 0#32 v)

@[simp] theorem be32Pack_length (v : Word) : (be32Pack v).length = 4 := rfl

/-- Four bytes of a buffer are a packed word. -/
theorem exists_eq_be32Pack_append {bs : List Byte} (h : 4 ≤ bs.length) : ∃ v r, bs = be32Pack v ++ r := by
  match bs, h with
  | c0 :: c1 :: c2 :: c3 :: r, _ =>
    exact ⟨be32Unpack c0 c1 c2 c3, r, by rw [be32Pack_be32Unpack]; rfl⟩

/-- A buffer is shorter than the length and type fields, or begins with them. -/
theorem exists_header {bs : List Byte} (h : 8 ≤ bs.length) : ∃ l t r, bs = be32Pack l ++ be32Pack t ++ r := by
  obtain ⟨l, r, rfl⟩ := exists_eq_be32Pack_append (bs := bs) (by omega)
  obtain ⟨t, r, rfl⟩ := exists_eq_be32Pack_append (bs := r) (by simp at h; omega)
  exact ⟨l, t, r, (List.append_assoc ..).symm⟩

/-- The number of bytes after which the result of a parse is there: a valid type code waits for the checksum field, an
invalid one for nothing more (R115, R133).  Fewer than 8 bytes do not say. -/
def resultAt : List Byte → Nat
  | l0 :: l1 :: l2 :: l3 :: t0 :: t1 :: t2 :: t3 :: _ =>
    if validRaw (be32Unpack t0 t1 t2 t3) = false then 8 else 12 + (be32Unpack l0 l1 l2 l3).toNat
  | _ => 8

section
variable (l t : Word) (r : List Byte)

theorem resultAt_header :
    resultAt (be32Pack l ++ be32Pack t ++ r) = if validRaw t = false then 8 else 12 + l.toNat := by
  simp only [be32Pack, List.cons_append, List.nil_append, resultAt, be32Unpack_bytes]

/-- A buffer that begins with the two fields ends before its result exactly when the type code is valid and the checksum
field is not complete. -/
theorem header_short_iff : (be32Pack l ++ be32Pack t ++ r).length < resultAt (be32Pack l ++ be32Pack t ++ r) ↔
    validRaw t = true ∧ r.length < l.toNat + 4 := by
  rw [resultAt_header]
  cases validRaw t with
  | false => simp; omega
  | true => simp; omega

theorem declaredLength_header : declaredLength (be32Pack l ++ be32Pack t ++ r) = l.toNat := by
  simp only [be32Pack, List.cons_append, List.nil_append, declaredLength, be32Unpack_bytes]

theorem parseRef_header : parseRef (be32Pack l ++ be32Pack t ++ r)
    = if validRaw t = false then .err .invalidTypeCode t 0 else parsePayload l t r := by
  simp only [be32Pack, List.cons_append, List.nil_append, parseRef, be32Unpack_bytes]

theorem parseChecksum_field (d : List Byte) : parseChecksum t d (be32Pack l ++ r)
    = if l = crc32 (be32Pack t ++ d) then .ok t d else .err .checksumMismatch l (crc32 (be32Pack t ++ d)) := by
  simp only [be32Pack, List.cons_append, List.nil_append, parseChecksum, be32Unpack_bytes]
  rfl

end

theorem eight_le_resultAt (bs : List Byte) : 8 ≤ resultAt bs := by
  unfold resultAt
  split
  · split <;> omega
  · rfl

/-- What is not the whole buffer has its result at the same byte, if it has its result. -/
theorem resultAt_take {bs : List Byte} {n : Nat} (h8 : 8 ≤ n) (hn : n ≤ bs.length) :
    resultAt (bs.take n) = resultAt bs := by
  obtain ⟨l, t, r, rfl⟩ := exists_header (h8.trans hn)
  have htake : (be32Pack l ++ be32Pack t ++ r).take n = be32Pack l ++ be32Pack t ++ r.take (n - 8) := by
    rw [List.take_append, List.take_of_length_le (by simpa using h8)]
    simp
  rw [htake, resultAt_header, resultAt_header]

/-- The three kinds of buffer: it ends before its result, its type code is invalid, or it holds a whole image. -/
theorem buffer_cases (bs : List Byte) : bs.length < resultAt bs ∨
    (∃ l t r, bs = be32Pack l ++ be32Pack t ++ r ∧ validRaw t = false) ∨
    (∃ l t d w r, bs = be32Pack l ++ be32Pack t ++ (d ++ (be32Pack w ++ r)) ∧ validRaw t = true ∧
      l.toNat = d.length) := by
  rcases Nat.lt_or_ge bs.length 8 with h8 | h8
  · exact .inl (h8.trans_le (eight_le_resultAt bs))
  · obtain ⟨l, t, r, rfl⟩ := exists_header h8
    cases hv : validRaw t with
    | false => exact .inr (.inl ⟨l, t, r, rfl, hv⟩)
    | true =>
      rcases Nat.lt_or_ge r.length (l.toNat + 4) with hr | hr
      · exact .inl ((header_short_iff l t r).2 ⟨hv, hr⟩)
      · obtain ⟨w, r', hw⟩ := exists_eq_be32Pack_append (bs := r.drop l.toNat) (by rw [List.length_drop]; omega)
        refine .inr (.inr ⟨l, t, r.take l.toNat, w, r', ?_, hv, ?_⟩)
        · rw [← hw, List.take_append_drop]
        · rw [List.length_take]
          omega

/-! ### The reference parse of each kind -/

theorem parseRef_of_invalid {t : Word} (hv : validRaw t = false) (l : Word) (r : List Byte) :
    parseRef (be32Pack l ++ be32Pack t ++ r) = .err .invalidTypeCode t 0 := by
  rw [parseRef_header, if_pos hv]

theorem parseRef_of_image {l t : Word} {d : List Byte} (hv : validRaw t = true) (hl : l.toNat = d.length)
    (w : Word) (r : List Byte) : parseRef (be32Pack l ++ be32Pack t ++ (d ++ (be32Pack w ++ r)))
      = if w = crc32 (be32Pack t ++ d) then .ok t d else .err .checksumMismatch w (crc32 (be32Pack t ++ d)) := by
  have htake : (d ++ (be32Pack w ++ r)).take l.toNat = d := List.take_left' hl.symm
  have hdrop : (d ++ (be32Pack w ++ r)).drop l.toNat = be32Pack w ++ r := List.drop_left' hl.symm
  rw [parseRef_header, if_neg (by simp [hv]), parsePayload, htake, hdrop, parseChecksum_field]
  simp [hl]

theorem parseChecksum_of_short {r : List Byte} (h : r.length < 4) (t : Word) (d : List Byte) :
    parseChecksum t d r = .err .truncatedInput 0 0 := by
  unfold parseChecksum
  split
  · simp at h; omega
  · rfl

theorem parseRef_of_short {bs : List Byte} (h : bs.length < resultAt bs) :
    parseRef bs = .err .truncatedInput 0 0 := by
  rcases Nat.lt_or_ge bs.length 8 with h8 | h8
  · unfold parseRef
    split
    · simp at h8; omega
    · rfl
  · obtain ⟨l, t, r, rfl⟩ := exists_header h8
    obtain ⟨hv, hr⟩ := (header_short_iff l t r).1 h
    rw [parseRef_header, if_neg (by simp [hv]), parsePayload]
    split
    · rfl
    · rw [if_neg (by rw [List.length_take]; omega), parseChecksum_of_short (by rw [List.length_drop]; omega)]

/-- Where the result of a parse is, by what it is (R115, R133). -/
theorem resultAt_of_parseRef (bs : List Byte) :
    match parseRef bs with
    | .ok _ d => resultAt bs = 12 + d.length
    | .err .invalidTypeCode _ _ => resultAt bs = 8
    | .err .checksumMismatch _ _ => resultAt bs = 12 + declaredLength bs
    | .err _ _ _ => bs.length < resultAt bs := by
  rcases buffer_cases bs with h | ⟨l, t, r, rfl, hv⟩ | ⟨l, t, d, w, r, rfl, hv, hl⟩
  · rw [parseRef_of_short h]
    exact h
  · rw [parseRef_of_invalid hv, resultAt_header, if_pos hv]
  · have hnot : ¬ validRaw t = false := by simp [hv]
    rw [parseRef_of_image hv hl, resultAt_header, if_neg hnot, declaredLength_header]
    by_cases hw : w = crc32 (be32Pack t ++ d)
    · rw [if_pos hw]
      exact congrArg _ hl
    · rw [if_neg hw]

/-! ### The bytes of each kind -/

/-- What the block shows of the result of a parse. -/
def Block.shows (k : Block) : ParseResult → Prop
  | .ok ty d => k.phase = .done ∧ k.len.toNat = d.length ∧ k.type = ty ∧ k.cnt.toNat = d.length ∧
      regRead k .crc = crc32 (be32Pack ty ++ d) ∧ k.wcrc = crc32 (be32Pack ty ++ d)
  | .err code a b => k.phase = .error ∧ k.err = code ∧ k.erra = a ∧ k.errb = b

/-- A block that shows a result has left the wire image. -/
theorem Block.shows.settled {k : Block} {p : ParseResult} (h : k.shows p) : k.phase = .done ∨ k.phase = .error := by
  cases p with
  | ok ty d => exact .inl h.1
  | err code a b => exact .inr h.1

/-- No PUSH changes the mode (R14). -/
theorem pushBlock_mode (b : Byte) (k : Block) : (pushBlock b k).mode = k.mode := by
  have hmove : Move (.push b) k (pushBlock b k) := move_blockAfter (.push b) k
  generalize pushBlock b k = k' at hmove ⊢
  cases hmove <;> rfl

theorem pushBytes_mode (bs : List Byte) (k : Block) : (pushBytes bs k).mode = k.mode := by
  induction bs generalizing k with
  | nil => rfl
  | cons b bs ih => rw [pushBytes_cons, ih, pushBlock_mode]

/-- A settled PARSE ignores further bytes (R103, R130). -/
theorem pushBytes_of_settled {k : Block} (hm : k.mode = .parse) (hp : k.phase = .done ∨ k.phase = .error)
    (bs : List Byte) : pushBytes bs k = k := by
  rcases hp with hp | hp
  · induction bs with
    | nil => rfl
    | cons b bs ih => rw [pushBytes_cons, pushBlock_of_parse_done hm hp, ih]
  · exact pushBytes_of_error hp bs

/-- A settled PARSE ignores END (R106, R130). -/
theorem endBlock_of_settled {k : Block} (hm : k.mode = .parse) (hp : k.phase = .done ∨ k.phase = .error) :
    endBlock k = k := by
  rcases hp with hp | hp
  · exact endBlock_of_done (.inl hm) hp
  · exact endBlock_of_error hp

/-- A byte of a 4-byte field that is not its last stays in the field (R98, R99, R102). -/
theorem pushBlock_field_byte {k : Block} (hm : k.mode = .parse) (hp : k.phase ∈ [Phase.len, .type, .crc])
    (hf : k.fidx ≠ 3#2) (b : Byte) :
    (pushBlock b k).phase = k.phase ∧ (pushBlock b k).fidx = k.fidx + 1#2 := by
  simp only [List.mem_cons, List.not_mem_nil, or_false] at hp
  rcases hp with hp | hp | hp
  · simp [pushBlock, hm, hp, pushParseLen, advanceField, hf]
  · simp [pushBlock, hm, hp, pushParseType, hf]
  · simp [pushBlock, hm, hp, pushParseCrc, hf]

/-- Too few bytes for the rest of a 4-byte field stay in the field. -/
theorem pushBytes_part_of_field {k : Block} {bs : List Byte} (hm : k.mode = .parse)
    (hp : k.phase ∈ [Phase.len, .type, .crc]) (h : k.fidx.toNat + bs.length < 4) :
    (pushBytes bs k).phase = k.phase := by
  induction bs generalizing k with
  | nil => rfl
  | cons b bs ih =>
    rw [List.length_cons] at h
    have hf : k.fidx ≠ 3#2 := by bv_omega
    obtain ⟨hphase, hfidx⟩ := pushBlock_field_byte hm hp hf b
    have hnext : (k.fidx + 1#2).toNat = k.fidx.toNat + 1 := by bv_omega
    rw [pushBytes_cons, ih ((pushBlock_mode b k).trans hm) (hphase ▸ hp) (by rw [hfidx]; omega), hphase]

/-- Too few bytes for the rest of the payload stay in the payload (R100). -/
theorem pushBytes_part_of_payload {k : Block} {bs : List Byte} (hm : k.mode = .parse) (hp : k.phase = .payload)
    (h : k.cnt.toNat + bs.length < k.len.toNat) : (pushBytes bs k).phase = .payload := by
  induction bs generalizing k with
  | nil => exact hp
  | cons b bs ih =>
    have hpush : pushBlock b k = pushParsePayload b k := by simp only [pushBlock, hm, hp]
    rw [List.length_cons] at h
    rw [pushBytes_cons, hpush]
    rcases pushParsePayload_cases b k with ⟨-, hk⟩ | ⟨hlast, -⟩
    · rw [hk]
      exact ih hm hp (by simp only; bv_omega)
    · exact absurd hlast (by bv_omega)

/-- After a valid type code, too few bytes for the payload and the checksum field reach no result. -/
theorem pushBytes_part_after_type {k : Block} {r : List Byte} (hm : k.mode = .parse) (hf : k.fidx = 0#2)
    (hc : k.cnt = 0#32) (hv : validRaw k.type = true) (hr : r.length < k.len.toNat + 4) :
    (pushBytes r (typeReceived k)).phase ∈ [Phase.payload, .crc] := by
  rcases Nat.lt_or_ge r.length k.len.toNat with hlt | hge
  · have hl0 : k.len ≠ 0#32 := by rintro h; simp [h] at hlt
    have htype : typeReceived k = { k with phase := .payload } := by simp [typeReceived, hv, hl0]
    have hpay := pushBytes_part_of_payload (k := { k with phase := .payload }) (bs := r) hm rfl
      (by simpa [hc] using hlt)
    simp [htype, hpay]
  · have hd : k.len.toNat = (r.take k.len.toNat).length := by rw [List.length_take]; omega
    have hpay := pushBytes_typeReceived hm hf hc hd hv
    have hcrc := pushBytes_part_of_field (k := { k with
      crc := (r.take k.len.toNat).foldl crcUpdate k.crc, cnt := k.len, phase := .crc }) (bs := r.drop k.len.toNat)
      hm (by simp) (by rw [List.length_drop, hf]; simp; omega)
    rw [← List.take_append_drop k.len.toNat r, pushBytes_append, hpay, hcrc]
    simp

theorem checksumReceived_mode (k : Block) : (checksumReceived k).mode = k.mode := by
  unfold checksumReceived
  split <;> rfl

/-- After a whole image the comparison of the checksums shows the result (R102). -/
theorem checksumReceived_shows {k : Block} {d : List Byte} (hl : k.len.toNat = d.length) (hc : k.cnt = k.len)
    (hcrc : k.crc = (be32Pack k.type ++ d).foldl crcUpdate crcInit) :
    (checksumReceived k).shows (if k.wcrc = crc32 (be32Pack k.type ++ d) then .ok k.type d
      else .err .checksumMismatch k.wcrc (crc32 (be32Pack k.type ++ d))) := by
  have hfinal : crcFinal k.crc = crc32 (be32Pack k.type ++ d) := congrArg crcFinal hcrc
  by_cases hw : k.wcrc = crc32 (be32Pack k.type ++ d)
  · rw [if_pos hw, checksumReceived, if_pos (hw.trans hfinal.symm)]
    exact ⟨rfl, hl, rfl, (congrArg _ hc).trans hl, hfinal, hw⟩
  · rw [if_neg hw, checksumReceived, hfinal, if_neg hw]
    exact ⟨rfl, rfl, rfl, rfl⟩

section
variable {k : Block} (hm : k.mode = .parse) (hp : k.phase = .len) (hf : k.fidx = 0#2) (hc : k.cnt = 0#32)
include hm hp hf hc

/-- A buffer that ends before its result leaves the block inside the wire image. -/
theorem pushBytes_of_short {bs : List Byte} (h : bs.length < resultAt bs) :
    (pushBytes bs k).phase ∈ [Phase.len, .type, .payload, .crc] := by
  rcases Nat.lt_or_ge bs.length 4 with h4 | h4
  · have hlen := pushBytes_part_of_field hm (by simp [hp]) (bs := bs) (by simpa [hf] using h4)
    simp [hlen, hp]
  rcases Nat.lt_or_ge bs.length 8 with h8 | h8
  · obtain ⟨v, r, rfl⟩ := exists_eq_be32Pack_append h4
    have htype := pushBytes_part_of_field (k := { k with len := v, fidx := 0#2, phase := .type }) (bs := r) hm
      (by simp) (by simp at h8 ⊢; omega)
    rw [pushBytes_append, pushBytes_len hm hf hp, htype]
    simp
  · obtain ⟨l, t, r, rfl⟩ := exists_header h8
    obtain ⟨hv, hr⟩ := (header_short_iff l t r).1 h
    have hafter := pushBytes_part_after_type (r := r) (k := { k with
      phase := .type, len := l, type := t, crc := (be32Pack t).foldl crcUpdate k.crc }) hm hf hc hv hr
    rw [pushBytes_append, pushBytes_header hm hp hf]
    simp only [List.mem_cons, List.not_mem_nil, or_false] at hafter ⊢
    rcases hafter with h | h <;> simp [h]

/-- A buffer that reaches its result leaves the block showing it. -/
theorem pushBytes_shows (hcrc : k.crc = crcInit) {bs : List Byte} (h : resultAt bs ≤ bs.length) :
    (pushBytes bs k).shows (parseRef bs) := by
  rcases buffer_cases bs with hshort | ⟨l, t, r, rfl, hv⟩ | ⟨l, t, d, w, r, rfl, hv, hl⟩
  · exact absurd h (Nat.not_le.2 hshort)
  · rw [parseRef_of_invalid hv, pushBytes_image_of_invalid hm hp hf hv]
    exact ⟨rfl, rfl, rfl, rfl⟩
  · have himage := pushBytes_image_of_valid hm hp hf hv hc hl w
    have hshows := checksumReceived_shows (d := d) (k := { k with
      phase := .crc, len := l, type := t, cnt := l, crc := (be32Pack t ++ d).foldl crcUpdate k.crc, wcrc := w })
      hl rfl (by rw [hcrc])
    rw [parseRef_of_image hv hl, ← List.append_assoc, ← List.append_assoc, pushBytes_append, himage,
      pushBytes_of_settled ?_ hshows.settled]
    · exact hshows
    · exact (checksumReceived_mode _).trans hm

/-- The first bytes of a buffer, once they reach the buffer's result, show it already, and fewer show no result. -/
theorem pushBytes_take (hcrc : k.crc = crcInit) {bs : List Byte} {n : Nat} (hn : n ≤ bs.length) :
    (n < resultAt bs ∧ (pushBytes (bs.take n) k).phase ≠ .done ∧ (pushBytes (bs.take n) k).phase ≠ .error) ∨
    (resultAt bs ≤ n ∧ (pushBytes (bs.take n) k).shows (parseRef bs) ∧
      pushBytes (bs.take n) k = pushBytes bs k) := by
  have hlen : (bs.take n).length = n := List.length_take_of_le hn
  rcases Nat.lt_or_ge n (resultAt bs) with h | h
  · have hshort : (bs.take n).length < resultAt (bs.take n) := by
      rcases Nat.lt_or_ge n 8 with h8 | h8
      · exact hlen.trans_lt (h8.trans_le (eight_le_resultAt _))
      · rwa [hlen, resultAt_take h8 hn]
    have hphase := pushBytes_of_short hm hp hf hc hshort
    exact .inl ⟨h, fun hdone => by simp [hdone] at hphase, fun herr => by simp [herr] at hphase⟩
  · have htake := resultAt_take ((eight_le_resultAt bs).trans h) hn
    have hsettled := (pushBytes_shows hm hp hf hc hcrc (bs := bs.take n) (by rwa [htake, hlen])).settled
    have heq : pushBytes (bs.take n) k = pushBytes bs k := by
      conv_rhs => rw [← List.take_append_drop n bs, pushBytes_append]
      exact (pushBytes_of_settled ((pushBytes_mode _ k).trans hm) hsettled _).symm
    exact .inr ⟨h, heq ▸ pushBytes_shows hm hp hf hc hcrc (h.trans hn), heq⟩

end

/-- INIT_PARSE and the bytes, without END. -/
theorem runProgram_initParse_push (bs : List Byte) (s : State) :
    runProgram (assemble [.cmd .initParse, .pushb bs]) s
      = .next { s with block := pushBytes bs (blockAfter .initParse s.block), pending := [] } := by
  have hp : assemble [.cmd .initParse, .pushb bs]
      = commandOf .initParse :: (bs.map (fun b => commandOf (.push b)) ++ []) := by
    simp [assemble, expandLine]
  rw [hp, runProgram_commandOf, runProgram_push]
  rfl

/-- Settles O56: the bytes leave the block showing their result, which END leaves alone, or inside the wire image, where
END reports a short input. -/
theorem parsingMatchesTheReference : Obligations.ParsingMatchesTheReference := by
  intro bs s
  have hmode : (pushBytes bs (blockAfter .initParse s.block)).mode = .parse := pushBytes_mode bs _
  refine ⟨_, runProgram_parseProgram bs s, rfl, rfl, ?_⟩
  change (endBlock _).mode = .parse ∧ (endBlock _).shows (parseRef bs)
  rcases Nat.lt_or_ge bs.length (resultAt bs) with h | h
  · have hphase := pushBytes_of_short (k := blockAfter .initParse s.block) rfl rfl rfl rfl h
    rw [endBlock_of_short hmode hphase, parseRef_of_short h]
    exact ⟨hmode, rfl, rfl, rfl, rfl⟩
  · have hshows := pushBytes_shows (k := blockAfter .initParse s.block) rfl rfl rfl rfl rfl h
    rw [endBlock_of_settled hmode hshows.settled]
    exact ⟨hmode, hshows⟩

/-- Settles O57: the first `n` bytes show the result from `resultAt` on (`pushBytes_take`), which is where the statement
puts each result (`resultAt_of_parseRef`). -/
theorem parseResultArrivesWithItsField : Obligations.ParseResultArrivesWithItsField := by
  intro bs n s hn
  have hmode : (pushBytes (bs.take n) (blockAfter .initParse s.block)).mode = .parse := pushBytes_mode _ _
  have htake := pushBytes_take (k := blockAfter .initParse s.block) rfl rfl rfl rfl rfl hn
  refine ⟨_, runProgram_initParse_push (bs.take n) s, fun hsettled => ?_, ?_⟩
  · rcases htake with ⟨-, hdone, herr⟩ | ⟨-, -, heq⟩
    · exact absurd hsettled (not_or.2 ⟨hdone, herr⟩)
    · rw [runProgram_parseProgram, ← heq, endBlock_of_settled hmode hsettled]
  · have hat := resultAt_of_parseRef bs
    simp only
    generalize pushBytes (bs.take n) _ = k at htake ⊢
    generalize parseRef bs = p at htake hat ⊢
    cases p with
    | ok t d =>
      simp only at hat ⊢
      rw [← hat]
      rcases htake with ⟨hlt, hdone, herr⟩ | ⟨hge, ⟨hdone, -⟩, -⟩
      · exact ⟨herr, iff_of_false hdone (Nat.not_le.2 hlt)⟩
      · exact ⟨by simp [hdone], iff_of_true hdone hge⟩
    | err code a b =>
      cases code with
      | invalidTypeCode | checksumMismatch =>
        simp only at hat ⊢
        rw [← hat]
        rcases htake with ⟨hlt, hdone, herr⟩ | ⟨hge, ⟨herr, -⟩, -⟩
        · exact ⟨hdone, iff_of_false herr (Nat.not_le.2 hlt)⟩
        · exact ⟨by simp [herr], iff_of_true herr hge⟩
      | _ =>
        rcases htake with ⟨-, hnot⟩ | ⟨hge, -⟩
        · exact hnot
        · exact absurd (hge.trans hn) (Nat.not_le.2 hat)

end Sys2Proof.Machine
end

section
/-! PROOFS. The serialising sequence (43_commands.md R113): it reads the wire image of the chunk (42_packer.md R88), and
the bytes it reads parse back to the chunk (R116). -/

namespace Sys2Proof.Machine

/-! ### The fields of ENCODE -/

theorem emitReads_add (m n : Nat) (k : Block) :
    emitReads (m + n) k = emitReads m k ++ emitReads n (emitBlock^[m] k) := by
  induction m generalizing k with
  | zero => simp [emitReads]
  | succ m ih => rw [Nat.succ_add, emitReads, ih, emitReads, Function.iterate_succ_apply, List.cons_append]

/-- The type field, fed to the CRC (R109): it ends in the payload, or past it where there is none. -/
theorem emit_type {k : Block} (hm : k.mode = .encode) (hp : k.phase = .type) (hf : k.fidx = 0#2) :
    emitBlock^[4] k = { k with
      crc := (be32Pack k.type).foldl crcUpdate k.crc, out := byteOf k.type 3#2, outv := true
      phase := if k.len = 0#32 then .crc else .payload } ∧
    emitReads 4 k = (be32Pack k.type).map fun b => 0x100#32 ||| b.setWidth 32 := by
  constructor <;> simp [emitReads, be32Pack, emitBlock, emitType, advanceField, feedCrc, produce, hm, hp, hf,
    outWord_of_outv]

/-- The length and type fields (R108, R109). -/
theorem emit_header {k : Block} (hm : k.mode = .encode) (hp : k.phase = .len) (hf : k.fidx = 0#2) :
    emitBlock^[8] k = { k with
      crc := (be32Pack k.type).foldl crcUpdate k.crc, out := byteOf k.type 3#2, outv := true
      phase := if k.len = 0#32 then .crc else .payload } ∧
    emitReads 8 k = (be32Pack k.len ++ be32Pack k.type).map fun b => 0x100#32 ||| b.setWidth 32 := by
  obtain ⟨hlen, hlenReads⟩ := emit_len hm hf hp
  obtain ⟨htype, htypeReads⟩ := emit_type
    (k := { k with fidx := 0#2, phase := .type, out := byteOf k.len 3#2, outv := true }) hm rfl rfl
  constructor
  · exact (Function.iterate_add_apply emitBlock 4 4 k).trans (by rw [hlen, htype, ← hf])
  · exact (emitReads_add 4 4 k).trans (by rw [hlen, hlenReads, htypeReads, List.map_append])

/-- `PUSH x; RD OUT` for each byte `x` (R113). -/
def echoProgram (d : List Byte) : List Event := d.flatMap fun x => [commandOf (.push x), readOf .out]

/-- The payload field (R104), entered where there is one: each byte is counted, fed to the CRC and echoed. -/
theorem runProgram_echo {d : List Byte} {s : State} (hm : s.block.mode = .encode) (hf : s.block.fidx = 0#2)
    (hp : s.block.phase = if s.block.cnt = s.block.len then .crc else .payload)
    (hc : s.block.cnt.toNat + d.length = s.block.len.toNat) (p : List Event) :
    ∃ o v, runProgram (echoProgram d ++ p) s = runProgram p { s with
      block := { s.block with
        crc := d.foldl crcUpdate s.block.crc, cnt := s.block.len, phase := .crc, out := o, outv := v }
      reads := s.reads ++ d.map fun b => 0x100#32 ||| b.setWidth 32 } := by
  induction d generalizing s with
  | nil =>
    have hcnt : s.block.cnt = s.block.len := BitVec.eq_of_toNat_eq hc
    rw [if_pos hcnt] at hp
    refine ⟨s.block.out, s.block.outv, ?_⟩
    rw [List.map_nil, List.append_nil]
    exact congrArg₂ (fun c q => runProgram p { s with block := { s.block with cnt := c, phase := q } }) hcnt hp
  | cons b d ih =>
    rw [List.length_cons] at hc
    have hne : s.block.cnt ≠ s.block.len := by bv_omega
    rw [if_neg hne] at hp
    have hpush := pushBlock_of_encode_payload (b := b) hm hp
    have hread : outWord (pushBlock b s.block) = 0x100#32 ||| b.setWidth 32 := by
      rw [hpush]
      exact outWord_of_outv rfl
    have hrun : runProgram (echoProgram (b :: d) ++ p) s = runProgram (echoProgram d ++ p) { s with
        block := pushBlock b s.block, reads := s.reads ++ [0x100#32 ||| b.setWidth 32] } := by
      rw [← hread]
      exact (runProgram_commandOf (.push b) _ s).trans (runProgram_readOf .out _ _)
    obtain ⟨o, v, h⟩ := ih (s := { s with
        block := pushBlock b s.block, reads := s.reads ++ [0x100#32 ||| b.setWidth 32] })
      (by simp [hpush, hm]) (by simp [hpush, hf]) (by simp [hpush]) (by simp only [hpush]; bv_omega)
    exact ⟨o, v, hrun.trans (h.trans (by simp [hpush, hf]))⟩

/-! ### The whole image -/

theorem encodeProgram_eq (d : List Byte) : encodeProgram d = commandOf .initEncode ::
    ((List.replicate 8 emitRead).flatten ++ (echoProgram d ++ ((List.replicate 4 emitRead).flatten ++ []))) := by
  simp [encodeProgram, assemble, expandLine, echoProgram, List.flatMap_assoc]

/-- The block in ENCODE when the length and type fields are sent: in the payload, or past it where there is none
(R113). -/
def headerSent (k : Block) : Block := { restart .encode k with
  crc := (be32Pack k.type).foldl crcUpdate crcInit, out := byteOf k.type 3#2, outv := true
  phase := if k.len = 0#32 then .crc else .payload }

/-- INIT_ENCODE and the length and type fields in the middle of a run. -/
theorem runProgram_header (p : List Event) (s : State) :
    runProgram (commandOf .initEncode :: ((List.replicate 8 emitRead).flatten ++ p)) s = runProgram p { s with
      block := headerSent s.block
      reads := s.reads ++ (be32Pack s.block.len ++ be32Pack s.block.type).map fun b => 0x100#32 ||| b.setWidth 32 } := by
  obtain ⟨hblock, hreads⟩ := emit_header (k := restart .encode s.block) rfl rfl rfl
  rw [runProgram_commandOf, runProgram_emitReads, withBlock_block, blockAfter, hblock, hreads]
  rfl

/-- The checksum field at the end of a run. -/
theorem runProgram_checksum {s : State} (hm : s.block.mode = .encode) (hp : s.block.phase = .crc)
    (hf : s.block.fidx = 0#2) : runProgram ((List.replicate 4 emitRead).flatten ++ []) s = .next {
      block := { s.block with phase := .done, out := byteOf (crcFinal s.block.crc) 3#2, outv := true }
      reads := s.reads ++ (be32Pack (crcFinal s.block.crc)).map fun b => 0x100#32 ||| b.setWidth 32
      pending := [] } := by
  obtain ⟨hblock, hreads⟩ := emit_crc hm hf hp
  rw [runProgram_emitReads, hblock, hreads, ← hf, runProgram_nil]

/-- Settles O55: INIT_ENCODE and the header (`runProgram_header`), the payload (`runProgram_echo`) and the checksum
(`runProgram_checksum`). -/
theorem serialisingReadsTheWireImage : Obligations.SerialisingReadsTheWireImage := by
  intro d s hl
  obtain ⟨o, v, hecho⟩ := runProgram_echo (d := d) (s := { s with
      block := headerSent s.block
      reads := s.reads ++ (be32Pack s.block.len ++ be32Pack s.block.type).map fun b => 0x100#32 ||| b.setWidth 32 })
    rfl rfl (by simp [headerSent, @eq_comm _ (0#32)]) (by simp [headerSent, hl])
    ((List.replicate 4 emitRead).flatten ++ [])
  rw [encodeProgram_eq, runProgram_header, hecho]
  refine ⟨_, runProgram_checksum rfl rfl rfl, rfl, ?_, rfl, rfl, rfl, rfl, rfl, rfl, ?_⟩
  · have hlen : BitVec.ofNat 32 d.length = s.block.len := by rw [← hl, BitVec.ofNat_toNat, BitVec.setWidth_eq]
    simp [wire, crc32, headerSent, hlen]
  · exact congrArg crcFinal List.foldl_append.symm

/-! ### The round trip -/

/-- A wire image as the reference parse cuts it. -/
theorem wire_eq (t : Word) (d : List Byte) : wire t d = be32Pack (BitVec.ofNat 32 d.length) ++ be32Pack t
    ++ (d ++ (be32Pack (crc32 (be32Pack t ++ d)) ++ [])) := by
  simp [wire]

theorem parseRef_wire_of_valid {t : Word} {d : List Byte} (hv : validRaw t = true) (hd : d.length < 2 ^ 32) :
    parseRef (wire t d) = .ok t d := by
  have hl : (BitVec.ofNat 32 d.length).toNat = d.length := (BitVec.toNat_ofNat ..).trans (Nat.mod_eq_of_lt hd)
  rw [wire_eq, parseRef_of_image hv hl, if_pos rfl]

theorem parseRef_wire_of_invalid {t : Word} (hv : validRaw t = false) (d : List Byte) :
    parseRef (wire t d) = .err .invalidTypeCode t 0 := by
  rw [wire_eq, parseRef_of_invalid hv]

/-- The byte of OUT is the byte that was produced (R23). -/
theorem setWidth_outWord (b : Byte) : (0x100#32 ||| b.setWidth 32).setWidth 8 = b := by
  rw [BitVec.setWidth_or]
  simp

/-- Settles O58: the bytes read are the wire image (O55), and the parse of a wire image is the reference's (O56). -/
theorem serialisedChunksParseBack : Obligations.SerialisedChunksParseBack := by
  intro d s s' hl
  have hd : d.length < 2 ^ 32 := hl ▸ s.block.len.isLt
  obtain ⟨t, hrun, -, hreads, -, -, -, -, -, -, hcrc⟩ := serialisingReadsTheWireImage d s hl
  obtain ⟨u, hparse, -, -, -, hresult⟩ := parsingMatchesTheReference (wire s.block.type d) s'
  have hbytes : ((t.reads.drop s.reads.length).map fun w => w.setWidth 8) = wire s.block.type d := by
    rw [hreads, List.drop_left, List.map_map]
    exact List.map_id'' setWidth_outWord _
  refine ⟨t, u, hrun, hbytes ▸ hparse, fun hv => ?_, fun hv => ?_⟩
  · rw [parseRef_wire_of_valid hv hd] at hresult
    obtain ⟨hphase, hlen, htype, hcnt, hcrc', -⟩ := hresult
    exact ⟨hphase, htype, BitVec.eq_of_toNat_eq (hlen.trans hl.symm), BitVec.eq_of_toNat_eq (hcnt.trans hl.symm),
      hcrc'.trans hcrc.symm⟩
  · rw [parseRef_wire_of_invalid hv] at hresult
    obtain ⟨hphase, herr, herra, -⟩ := hresult
    exact ⟨hphase, herr, herra⟩

end Sys2Proof.Machine
end

section
/-! PROOFS. The host's loads and stores (44_register_access.md): a read observes its register (R121), a write of CMD runs
its command (R123), one of LEN or TYPE asks for a quiescent phase (R122), and any other write is ignored (R124). -/

namespace Sys2Proof.Machine

/-! ### The step of an access -/

/-- A step that takes a read of a register observes its value and leaves the block (R121). -/
theorem step_readOf {s : State} {r : Reg} {rest : List Event} (hp : s.pending = readOf r :: rest) :
    step s = .next { s with pending := rest, reads := s.reads ++ [regRead s.block r] } :=
  (step_cons hp).trans (perform_readOf r _)

/-- A step that takes a write to a register changes the block only. -/
theorem step_writeOf {s : State} {r : Reg} {v : Word} {rest : List Event} (hp : s.pending = writeOf r v :: rest) :
    step s = .next { s with pending := rest, block := blockWritten r v s.block } :=
  (step_cons hp).trans ((perform_writeOf r v _).trans (regWrite_eq r v _))

/-- Settles O28: the write of CMD decodes its word, and a legal one runs (`step_of_legal`). -/
theorem stepRunsTheDecodedCommand : Obligations.StepRunsTheDecodedCommand :=
  fun _ _ _ _ hp hd => step_of_legal hp hd

/-! ### Reads -/

/-- The registers in the order of their offsets (R34). -/
def windowRegs : List Reg :=
  [.cmd, .status, .len, .type, .crc, .wcrc, .out, .cnt, .erra, .errb, .flags,
    .reserved 0, .reserved 1, .reserved 2, .reserved 3, .reserved 4]

/-- Settles O31: the table of R121 pairs each register's offset with what `RegRead` gives of it, so each read in it is a
read of a register. -/
theorem readsReturnTheRegister : Obligations.ReadsReturnTheRegister := by
  intro s rest k status p hmem hp
  change p ∈ windowRegs.map fun r => ((regOffset r : Int), regRead s.block r) at hmem
  obtain ⟨r, -, rfl⟩ := List.mem_map.1 hmem
  exact step_readOf hp

/-! ### Writes -/

/-- A step that writes LEN (R122). -/
theorem step_writeOf_len {s : State} {v : Word} {rest : List Event} (hp : s.pending = writeOf .len v :: rest) :
    step s = .next { s with
      pending := rest
      block := if quiescent s.block.phase then { s.block with len := v }
        else raise .protocolError v 0x08#32 s.block } :=
  step_writeOf hp

/-- A step that writes TYPE (R122). -/
theorem step_writeOf_type {s : State} {v : Word} {rest : List Event} (hp : s.pending = writeOf .type v :: rest) :
    step s = .next { s with
      pending := rest
      block := if quiescent s.block.phase then { s.block with type := v }
        else raise .protocolError v 0x0C#32 s.block } :=
  step_writeOf hp

/-- Settles O32: the branches of R122 for each register, in the quiescent phases and outside them. -/
theorem lenAndTypeAreWrittenWhenQuiescent : Obligations.LenAndTypeAreWrittenWhenQuiescent := by
  intro s rest v quiet refusedAt
  have hquiet : quiescent s.block.phase = true ↔ quiet := quiescent_iff s.block.phase
  refine ⟨fun hp => ?_, fun hp => ?_⟩
  · rw [step_writeOf_len hp]
    refine ⟨fun hq => ?_, fun hq => ?_⟩
    · rw [if_pos (hquiet.2 hq)]
    · rw [if_neg (mt hquiet.1 hq)]; rfl
  · rw [step_writeOf_type hp]
    refine ⟨fun hq => ?_, fun hq => ?_⟩
    · rw [if_pos (hquiet.2 hq)]
    · rw [if_neg (mt hquiet.1 hq)]; rfl

/-- The registers that the host cannot write: all but CMD, LEN and TYPE (R124). -/
def readOnlyRegs : List Reg :=
  windowRegs.filter (· ∉ [Reg.cmd, .len, .type])

/-- Only writes to CMD, LEN and TYPE reach the block (R124). -/
theorem blockWritten_of_mem_readOnlyRegs {r : Reg} (hr : r ∈ readOnlyRegs) (v : Word) (k : Block) :
    blockWritten r v k = k := by
  have hnot : r ∉ [Reg.cmd, .len, .type] := of_decide_eq_true (List.mem_filter.1 hr).2
  cases r with
  | cmd | len | type => exact absurd (by simp) hnot
  | _ => rfl

/-- Settles O33: the offsets of R124 are those of the read-only and reserved registers, whose writes leave the block. -/
theorem readOnlyWritesAreIgnored : Obligations.ReadOnlyWritesAreIgnored := by
  intro s rest v off hmem hp
  change off ∈ readOnlyRegs.map fun r => (regOffset r : Int) at hmem
  obtain ⟨r, hr, rfl⟩ := List.mem_map.1 hmem
  rw [step_writeOf hp, blockWritten_of_mem_readOnlyRegs hr]

end Sys2Proof.Machine
end

section
/-! PROOFS. The errors (60_exceptions.md): what error entry records and leaves alone (R127, R128), and that phase ERROR
keeps the first error until a restart or a reset (R130, R131). -/

namespace Sys2Proof.Machine

/-! ### Error entry -/

/-- The ways into phase ERROR, one for each code that is raised (R127): error entry on the block as it stands, or on
the block that a complete field leaves, where `fidx` is back at 0. -/
inductive ErrorEntry : Event → Block → Block → Prop
  | truncatedInput (e k) (hp : k.phase ∈ [Phase.len, .type, .payload, .crc]) :
      ErrorEntry e k (raise .truncatedInput 0#32 0#32 k)
  | invalidTypeCode (e k t c) (hp : k.phase = .type) :
      ErrorEntry e k (raise .invalidTypeCode t 0#32 { k with type := t, crc := c, fidx := 0#2 })
  | lengthMismatch (e k t c) (hp : k.phase = .type) :
      ErrorEntry e k (raise .lengthMismatch k.len k.cnt { k with type := t, crc := c, fidx := 0#2 })
  | checksumMismatch (e k w) (hp : k.phase = .crc) :
      ErrorEntry e k (raise .checksumMismatch w (crcFinal k.crc) { k with wcrc := w, fidx := 0#2 })
  | protocolError (r v k) (hr : r ∈ [Reg.cmd, .len, .type]) :
      ErrorEntry (writeOf r v) k (raise .protocolError v (BitVec.ofNat 32 (regOffset r)) k)
  | illegalCommand (w k) : ErrorEntry (writeOf .cmd w) k (raise .illegalCommand w 0#32 k)

/-- A command that enters phase ERROR does so in one of these ways; no other move leads there. -/
theorem errorEntry_of_move {i : Instr} {k k' : Block} (h : Move i k k') (hne : k.phase ≠ .error)
    (herr : k'.phase = .error) : ErrorEntry (commandOf i) k k' := by
  cases h with
  | refused => exact .protocolError .cmd (encode i) k (by simp)
  | truncated _ _ hp => exact .truncatedInput _ k (by simpa using hp)
  | typeInvalid _ _ _ hp => exact .invalidTypeCode _ k _ _ hp
  | typeMismatch _ _ _ hp => exact .lengthMismatch _ k _ _ hp
  | crcMismatch _ _ _ hp => exact .checksumMismatch _ k _ hp
  | nop | ignored | ignoredDone | btest | emitNone => exact absurd herr hne
  | lenByte | typeByte | payloadByte | crcByte | echoByte | emitLenByte | emitTypeByte | emitCrcByte =>
    exact absurd herr hne
  | initParse | initEncode | sreset | lenLast | typeEmpty | typeLast | payloadLast | crcMatch | echoLast
  | emitLenLast | emitTypeEmpty | emitTypeLast | emitCrcLast => cases herr

/-- The same of every event. -/
theorem errorEntry_of_eventMove {e : Event} {k k' : Block} (h : EventMove e k k') (hne : k.phase ≠ .error)
    (herr : k'.phase = .error) : ErrorEntry e k k' := by
  cases h with
  | command w i _ _ hd hmove =>
    rw [eq_encode_of_decode hd]
    exact errorEntry_of_move hmove hne herr
  | illegal w => exact .illegalCommand w k
  | lenRefused v => exact .protocolError .len v k (by simp)
  | typeRefused v => exact .protocolError .type v k (by simp)
  | hardReset => cases herr
  | none | illegalIgnored | lenWritten | typeWritten => exact absurd herr hne

/-- Settles O42, by cases on the way into phase ERROR. -/
theorem errorsRecordTheirInformation : Obligations.ErrorsRecordTheirInformation := by
  intro e rest s t hp h hne herr
  have hentry := errorEntry_of_eventMove (eventMove_of_step hp h) hne herr
  generalize s.block = k, t.block = k' at hentry ⊢
  cases hentry with
  | truncatedInput _ _ hphase => exact ⟨rfl, rfl, rfl, rfl, rfl, hphase⟩
  | invalidTypeCode _ _ _ _ hphase | checksumMismatch _ _ _ hphase => exact ⟨rfl, rfl, rfl, rfl, rfl, hphase⟩
  | lengthMismatch _ _ _ _ hphase => exact ⟨rfl, rfl, rfl, rfl, rfl, by simp [hphase]⟩
  | protocolError r v _ hr => exact ⟨rfl, rfl, rfl, r, hr, v, rfl, rfl, rfl⟩
  | illegalCommand w => exact ⟨rfl, rfl, rfl, w, rfl, rfl, rfl⟩

/-- Settles O43, by cases on the way into phase ERROR: only the errors of a complete field find the block changed. -/
theorem errorEntryIsPrecise : Obligations.ErrorEntryIsPrecise := by
  refine ⟨fun _ _ _ _ => rfl, fun e rest s t hp h hne herr => ?_⟩
  have hentry := errorEntry_of_eventMove (eventMove_of_step hp h) hne herr
  generalize s.block = k, t.block = k' at hentry ⊢
  cases hentry with
  | truncatedInput | protocolError | illegalCommand => exact ⟨⟨rfl, rfl, rfl, rfl⟩, fun _ => rfl⟩
  | invalidTypeCode | lengthMismatch | checksumMismatch => exact ⟨⟨rfl, rfl, rfl, rfl⟩, by simp⟩

/-! ### Phase ERROR -/

/-- Settles O44: PUSH, END and EMIT by `exec_stream_of_error`, an illegal word by `step_of_illegal_ignored`; LEN and
TYPE are written because ERROR is a quiescent phase. -/
theorem errorIsSticky : Obligations.ErrorIsSticky := by
  intro s herr
  have hquiet : quiescent s.block.phase = true := (quiescent_iff _).2 (.inr (.inr herr))
  refine ⟨fun b => exec_stream_of_error (.inl ⟨b, rfl⟩) herr, exec_stream_of_error (.inr (.inl rfl)) herr,
    exec_stream_of_error (.inr (.inr rfl)) herr, rfl, fun _ _ => rfl,
    fun rest => ⟨fun w hp hd => step_of_illegal_ignored hp hd herr, fun v hp => ?_, fun v hp => ?_,
      fun r => step_readOf⟩⟩
  · rw [step_writeOf_len hp, if_pos hquiet]
  · rw [step_writeOf_type hp, if_pos hquiet]

/-- From a block in phase ERROR, a block is reached that is in phase ERROR with the same error. -/
def KeepsError (k k' : Block) : Prop := k.phase = .error →
  k'.phase = .error ∧ k'.err = k.err ∧ k'.ephase = k.ephase ∧ k'.erra = k.erra ∧ k'.errb = k.errb

theorem KeepsError.refl (k : Block) : KeepsError k k := fun hp => ⟨hp, rfl, rfl, rfl, rfl⟩

theorem KeepsError.trans {k₀ k k' : Block} (h : KeepsError k₀ k) (h' : KeepsError k k') : KeepsError k₀ k' := by
  intro hp
  obtain ⟨hk, herr, hephase, herra, herrb⟩ := h hp
  obtain ⟨hk', herr', hephase', herra', herrb'⟩ := h' hk
  exact ⟨hk', herr'.trans herr, hephase'.trans hephase, herra'.trans herra, herrb'.trans herrb⟩

/-- A move that is made outside phase ERROR only keeps every error. -/
theorem KeepsError.of_phase {p : Phase} {k k' : Block} (hp : k.phase = p) (hne : p ≠ .error := by decide) :
    KeepsError k k' :=
  fun herr => absurd (hp.symm.trans herr) hne

/-- Every command but the three restarts keeps the error (R130, R131): it is made outside phase ERROR, or it does not
write the error record. -/
theorem move_keepsError {i : Instr} {k k' : Block} (h : Move i k k') :
    i = .initParse ∨ i = .initEncode ∨ i = .sreset ∨ KeepsError k k' := by
  cases h with
  | initParse => exact .inl rfl
  | initEncode => exact .inr (.inl rfl)
  | sreset => exact .inr (.inr (.inl rfl))
  | nop | ignored | ignoredDone | btest | emitNone => exact .inr (.inr (.inr (.refl k)))
  | refused _ _ _ hne => exact .inr (.inr (.inr fun herr => absurd herr hne))
  | truncated _ _ hp => exact .inr (.inr (.inr fun herr => by simp [herr] at hp))
  | lenByte _ _ _ hp | lenLast _ _ _ hp | typeByte _ _ _ hp | typeInvalid _ _ _ hp | typeEmpty _ _ _ hp
  | typeMismatch _ _ _ hp | typeLast _ _ _ hp | payloadByte _ _ _ hp | payloadLast _ _ _ hp | crcByte _ _ _ hp
  | crcMatch _ _ _ hp | crcMismatch _ _ _ hp | echoByte _ _ _ hp | echoLast _ _ _ hp
  | emitLenByte _ _ hp | emitLenLast _ _ hp | emitTypeByte _ _ hp | emitTypeEmpty _ _ hp | emitTypeLast _ _ hp
  | emitCrcByte _ _ hp | emitCrcLast _ _ hp => exact .inr (.inr (.inr (.of_phase hp)))

/-- The events that leave phase ERROR (R131, R139). -/
def Event.leavesError (e : Event) : Prop :=
  e = commandOf .initParse ∨ e = commandOf .initEncode ∨ e = commandOf .sreset ∨ e = .hardReset

/-- Every other event keeps the error. -/
theorem eventMove_keepsError {e : Event} {k k' : Block} (h : EventMove e k k') :
    Event.leavesError e ∨ KeepsError k k' := by
  cases h with
  | command w i _ _ hd hmove =>
    rw [eq_encode_of_decode hd]
    rcases move_keepsError hmove with rfl | rfl | rfl | hkeep
    · exact .inl (.inl rfl)
    · exact .inl (.inr (.inl rfl))
    · exact .inl (.inr (.inr (.inl rfl)))
    · exact .inr hkeep
  | hardReset => exact .inl (.inr (.inr (.inr rfl)))
  | illegal _ _ _ _ hne => exact .inr fun herr => absurd herr hne
  | lenRefused _ _ hq | typeRefused _ _ hq =>
    exact .inr fun herr => absurd herr (phase_ne_error_of_not_quiescent hq)
  | none | illegalIgnored | lenWritten | typeWritten => exact .inr (.refl k)

/-- Settles O45: an event that keeps the error does not leave phase ERROR; the restarts start from constants. -/
theorem onlyRestartsLeaveError : Obligations.OnlyRestartsLeaveError := by
  refine ⟨fun e rest s t hp h herr hne => ?_, fun i s hi => ⟨_, exec_eq i s, ?_⟩⟩
  · have hevent := eventMove_keepsError (eventMove_of_step hp h)
    exact hevent.resolve_right fun hkeep => hne (hkeep herr).1
  · rcases hi with rfl | rfl | rfl <;> exact ⟨nofun, rfl, rfl, rfl, rfl⟩

/-- Settles O46: each event of the run keeps the error (`eventMove_keepsError`), so the run does
(`runProgram_keeps`). -/
theorem firstErrorIsKept : Obligations.FirstErrorIsKept := by
  intro p s t herr hstay h
  have hkeep : KeepsError s.block t.block := by
    refine runProgram_keeps KeepsError.refl (fun e he k₀ k k' hmove hk => ?_) h
    have hnot : ¬ Event.leavesError e := by simpa [Event.leavesError] using hstay e he
    exact hk.trans ((eventMove_keepsError hmove).resolve_left hnot)
  exact hkeep herr

end Sys2Proof.Machine
end

section
/-! PROOFS. The reset state (70_reset_and_hazards.md R140, R141). -/

namespace Sys2Proof.Machine

/-- The last two rows of R140: OUT.BYTE and OUT.V. -/
theorem outWord_reset : outWord Block.reset = 0#32 := by decide

/-- Four registers are computed: STATUS, CRC (all ones inside, read as the CRC of nothing, R75), OUT and FLAGS. Every
other one shows its element, or is the constant 0. -/
theorem regRead_reset (r : Reg) : regRead Block.reset r = if r = .flags then 0x00000007#32 else 0x00000000#32 := by
  cases r with
  | status => exact statusWord_reset
  | crc => exact crcFinal_crcInit
  | out => exact outWord_reset
  | flags => exact flags_zero
  | cmd | len | type | wcrc | cnt | erra | errb | reserved => rfl

/-- Settles O1: the elements by the definition of the reset block, the register views by `regRead_reset`. -/
theorem resetGivesEveryElementItsValue : Obligations.ResetGivesEveryElementItsValue :=
  ⟨rfl, regRead_reset⟩

end Sys2Proof.Machine
end

section
/-! PROOFS. What holds of every command: it completes (60_exceptions.md, opening), and its word and the decoder agree
(30_encoding.md R48 to R51, R57). -/

namespace Sys2Proof.Machine

/-- Settles O25: the operands are in range by their types, a word decodes to the command it encodes
(`decode_encode`), and a legal word has the three fields of its command's word (`eq_encode_of_decode`). -/
theorem decodeAndEncodeAgree : Obligations.DecodeAndEncodeAgree :=
  ⟨fun i => ⟨Instr.wellFormed_eq_true i, decode_encode i⟩, fun _ _ h => (eq_encode_of_decode h).symm⟩

/-- Settles O21: every command, in every mode and phase, answers the state with the block it leaves (`exec_eq`), and
the host's side of the run is no part of the block. -/
theorem everyCommandCompletes : Obligations.EveryCommandCompletes := fun i s =>
  ⟨s.withBlock (blockAfter i s.block), exec_eq i s, withBlock_pending s _, withBlock_reads s _⟩

/-- Settles O24: each word of R57 is by evaluation the word its command encodes to, which decodes to the command. -/
theorem tableWordsDecode : Obligations.TableWordsDecode :=
  ⟨decode_encode .nop, decode_encode .initParse, decode_encode .initEncode, decode_encode (.push 0x52#8),
    decode_encode (.push 0xFF#8), decode_encode .endInput, decode_encode .emit, decode_encode (.btest 2#2 5#4),
    decode_encode (.btest 3#2 15#4), decode_encode .sreset⟩

end Sys2Proof.Machine
end
